-- ==== Sys2Proof/Word.lean ====
section
/-! DEFINITION. The widths the spec gives names to (`00_scope.md` R7, R8): every value of the block is an
unsigned bit vector of one of these widths. -/

namespace Sys2Proof

/-- One byte of the stream, of the payload buffer or of an operand (R8: "A byte is 8 bits"). -/
abbrev Byte := BitVec 8

/-- One input transaction word `w[10:0]` (R74, `WORD_W` = 11 of R7). -/
abbrev TxnWord := BitVec 11

/-- The five header bytes as one word `H[39:0]` (R71). -/
abbrev HeaderWord := BitVec 40

/-- A `payload_length` (R70, `LEN_W` = 32 of R7). -/
abbrev Len := BitVec 32

end Sys2Proof
end

