-- ==== Sys2Proof/Syntax.lean ====
section
/-! DEFINITION. The instructions: one constructor for each row of `spec/opcode_table.json`, and the two encodings the
block decodes (`30_encoding.md`: Part A, the 40-bit frame header; Part B, the 11-bit transaction word). -/

namespace Sys2Proof

/-- One constructor for each row of the opcode table. The first nine are transaction words (R75, R77, R79); the last is
the row of the wire frame header, "data for the header decoder, not an input word" (R79). -/
inductive Instr where
  /-- `NOP` (R100). The argument is ignored; it is kept, so that every word has its own instruction. -/
  | nop (arg : Byte)
  /-- `BYTE b` (R130): one byte of the framed stream. -/
  | byte (b : Byte)
  /-- `EOS` (R180): the source has ended. -/
  | eos
  /-- `CFG N` (R101): construct with `N` destinations, `N` = `ARG[3:0]`. -/
  | cfg (n : BitVec 4)
  /-- `SRST` (R102): soft reset. -/
  | srst
  /-- A word with `OP` = 0b101 (R103). -/
  | reservedOp5 (arg : Byte)
  /-- A word with `OP` = 0b110 (R103). -/
  | reservedOp6 (arg : Byte)
  /-- A word with `OP` = 0b111 (R103). -/
  | reservedOp7 (arg : Byte)
  /-- The table's default row (R79, R103): an `EOS`, `SRST` or `CFG` word whose reserved `ARG` bits are not 0. -/
  | illegalOther (w : TxnWord)
  /-- The 40-bit frame header that the header decoder reads (R71, R132). -/
  | frameHeader (channelId : Byte) (payloadLength : Len)
deriving DecidableEq, Repr

/-- A value in one of the block's two encodings. -/
inductive Encoded where
  /-- Part B: a transaction word (R74). -/
  | word (w : TxnWord)
  /-- Part A: a frame header (R71). -/
  | header (h : HeaderWord)
deriving DecidableEq, Repr

end Sys2Proof
end

