-- ==== Sys2Proof/WellFormed.lean ====
section
/-! DEFINITION. Which instructions are well formed: all of them, but for the default row, whose word must be one of the
words R77 (b), (c) and (d) call illegal. -/

namespace Sys2Proof

/-- R77 (b), (c), (d): an `EOS` or `SRST` word with `ARG ≠ 0`, or a `CFG` word with `ARG[7:4] ≠ 0`. -/
def isIllegalOther (w : TxnWord) : Bool :=
  let op := w.extractLsb' 8 3
  (op == 2#3 && w.extractLsb' 0 8 != 0#8) ||
  (op == 4#3 && w.extractLsb' 0 8 != 0#8) ||
  (op == 3#3 && w.extractLsb' 4 4 != 0#4)

/-- Every operand value of every row is legal (R72, R75, R77), but the default row takes only the words that no earlier
row takes (R79). -/
def Instr.wellFormed : Instr → Bool
  | .nop _ => true
  | .byte _ => true
  | .eos => true
  | .cfg _ => true
  | .srst => true
  | .reservedOp5 _ => true
  | .reservedOp6 _ => true
  | .reservedOp7 _ => true
  | .illegalOther w => isIllegalOther w
  | .frameHeader _ _ => true

end Sys2Proof
end

