-- ==== Sys2Proof/Decode.lean ====
section
/-! DEFINITION. The decoder of both encodings (`30_encoding.md` R70–R79), the encoder, and the host's view of the
decoder. Decoding is total: a word that is no legal transaction decodes to one of the four illegal rows by name, and
acting on it is R103. -/

namespace Sys2Proof

/-! ### Fields and byte order -/

/-- `OP = w[10:8]` (R74). -/
def opField (w : TxnWord) : BitVec 3 := w.extractLsb' 8 3

/-- `ARG = w[7:0]` (R74). -/
def argField (w : TxnWord) : Byte := w.extractLsb' 0 8

/-- `ARG[7:4]`, the reserved bits of `CFG` (R75). -/
def argHigh (w : TxnWord) : BitVec 4 := w.extractLsb' 4 4

/-- `ARG[3:0]`, the operand of `CFG` (R76). -/
def argLow (w : TxnWord) : BitVec 4 := w.extractLsb' 0 4

/-- The word with the given `OP` and `ARG` (R74). -/
def txnWord (op : BitVec 3) (arg : Byte) : TxnWord := op ++ arg

/-- `be32` of R9: the first byte is the most significant one (R54). -/
def be32 (b0 b1 b2 b3 : Byte) : Len := b0 ++ b1 ++ b2 ++ b3

/-- `H[39:0] = b0 ++ b1 ++ b2 ++ b3 ++ b4` (R71). -/
def headerOfBytes (b0 b1 b2 b3 b4 : Byte) : HeaderWord := b0 ++ b1 ++ b2 ++ b3 ++ b4

/-- `channel_id = H[39:32]` (R71). -/
def headerChannel (h : HeaderWord) : Byte := h.extractLsb' 32 8

/-- `payload_length = H[31:0]` (R71). -/
def headerLength (h : HeaderWord) : Len := h.extractLsb' 0 32

/-- The four bytes of a length, most significant first, as they stand on the wire (R70). -/
def lengthBytes (l : Len) : List Byte :=
  [l.extractLsb' 24 8, l.extractLsb' 16 8, l.extractLsb' 8 8, l.extractLsb' 0 8]

/-- The five header bytes in arrival order (R70, and `HDR c, L` of R81). -/
def headerBytes (c : Byte) (l : Len) : List Byte := c :: lengthBytes l

/-- The reference encoder `frame(c, p)` of R73, with `L = |p|` as 32 bits. -/
def frameBytes (c : Byte) (p : List Byte) : List Byte := headerBytes c (BitVec.ofNat 32 p.length) ++ p

/-! ### Decoding -/

/-- `Decode(w)` of R78, with the four illegal rows of the table kept apart. -/
def decodeWord (w : TxnWord) : Instr :=
  match (opField w).toNat with
  | 0 => .nop (argField w)
  | 1 => .byte (argField w)
  | 2 => if argField w = 0#8 then .eos else .illegalOther w
  | 3 => if argHigh w = 0#4 then .cfg (argLow w) else .illegalOther w
  | 4 => if argField w = 0#8 then .srst else .illegalOther w
  | 5 => .reservedOp5 (argField w)
  | 6 => .reservedOp6 (argField w)
  | _ => .reservedOp7 (argField w)

/-- The header decoder's reading of the 40-bit header (R71, R132); every value is legal (R72). -/
def decodeHeader (h : HeaderWord) : Instr := .frameHeader (headerChannel h) (headerLength h)

/-- Decoding of either encoding. -/
def decode : Encoded → Instr
  | .word w => decodeWord w
  | .header h => decodeHeader h

/-! ### Encoding -/

/-- The encoding of an instruction, from the `match` and the fields of its row (R75, R71). -/
def encode : Instr → Encoded
  | .nop a => .word (txnWord 0#3 a)
  | .byte b => .word (txnWord 1#3 b)
  | .eos => .word (txnWord 2#3 0#8)
  | .cfg n => .word (txnWord 3#3 (0#4 ++ n))
  | .srst => .word (txnWord 4#3 0#8)
  | .reservedOp5 a => .word (txnWord 5#3 a)
  | .reservedOp6 a => .word (txnWord 6#3 a)
  | .reservedOp7 a => .word (txnWord 7#3 a)
  | .illegalOther w => .word w
  | .frameHeader c l => .header (c ++ l)

/-! ### The opcode table of R79 -/

/-- One `txn11` row of the opcode table: a word `w` is the row's when `w & mask = match`. -/
structure TableRow where
  mask : TxnWord
  pattern : TxnWord
  build : TxnWord → Instr

/-- The `txn11` rows, in the table's order; the last is the default row. -/
def opcodeTable : List TableRow :=
  [ ⟨0x700#11, 0x000#11, fun w => .nop (argField w)⟩,
    ⟨0x700#11, 0x100#11, fun w => .byte (argField w)⟩,
    ⟨0x7FF#11, 0x200#11, fun _ => .eos⟩,
    ⟨0x7F0#11, 0x300#11, fun w => .cfg (argLow w)⟩,
    ⟨0x7FF#11, 0x400#11, fun _ => .srst⟩,
    ⟨0x700#11, 0x500#11, fun w => .reservedOp5 (argField w)⟩,
    ⟨0x700#11, 0x600#11, fun w => .reservedOp6 (argField w)⟩,
    ⟨0x700#11, 0x700#11, fun w => .reservedOp7 (argField w)⟩,
    ⟨0x000#11, 0x000#11, fun w => .illegalOther w⟩ ]

/-- Whether a row takes the word (R79). -/
def TableRow.takes (r : TableRow) (w : TxnWord) : Bool := w &&& r.mask == r.pattern

/-- The decoder R79 writes from the table: the first row that matches, in table order. -/
def tableDecode (w : TxnWord) : Option Instr :=
  (opcodeTable.find? fun r => r.takes w).map fun r => r.build w

/-! ### The host's view -/

/-- The instruction the decoder reads from `w`, numbered as the opcode table numbers a row's bits: a transaction word has
11 bits (two whole bytes), a frame header 40, with `H[39:32]` the byte that arrives first (R71). A number with more bits
than its format is no instruction. -/
def decodeTableWord (nbits w : Nat) : Option Instr :=
  if nbits = 40 then
    if w < 2 ^ 40 then some (decode (.header (BitVec.ofNat 40 w))) else none
  else if 11 ≤ nbits ∧ nbits ≤ 16 then
    if w < 2 ^ 11 then some (decode (.word (BitVec.ofNat 11 w))) else none
  else none

end Sys2Proof
end

