-- ==== Sys2Proof/Config.lean ====
section
/-! DEFINITION. The implementation parameters of `00_scope.md` R7, all fixed for a conforming block, and the two
uninterpreted constants: the value of a payload-buffer byte that nothing has written, and how many cycles an implementation
leaves between two beats of a chunk. -/

namespace Sys2Proof.Config

/-- `NCH_MAX` (R7): the most destinations one block can bind. -/
def nchMax : Nat := 8

/-- `HDR_BYTES` (R7): the size of a frame header in bytes. -/
def hdrBytes : Nat := 5

/-- `PAYLOAD_CAP` (R7, D9, U10): the capacity of the payload buffer in bytes, `2^32 − 1` for a conforming block. -/
def payloadCap : Nat := 2 ^ 32 - 1

/-- FREE VALUE (log entry 6): what the payload buffer holds at an offset that nothing has written, for the given draw
and offset. The spec gives `MemWrite` and `MemRead` no meaning there (R9) and no reachable state comes there (R32 I5);
the constant has no body, so nothing can be proved of its value. -/
opaque unwrittenPbufByte : Nat → Nat → Byte

/-- FREE VALUE (log entry 9): for the given draw, how many cycles without `dst_valid` stand before the next beat of a chunk is
presented. R236 gives the beats and their order, and R244 forbids a model to assume a cycle count; the constant has no body,
so nothing can be proved of its value. -/
opaque beatGap : Nat → Nat

end Sys2Proof.Config
end

