-- ==== Sys2Proof/Machine/State.lean ====
section
/-! DEFINITION. The state of the block: the architectural fields of `10_state.md` R20, the port registers of
`70_reset_and_hazards.md` R234–R237, and, as the model's own fields, the pin samples still to come and the record of what
the block has put out. -/

namespace Sys2Proof.Machine

/-- `MODE` (R21): the instance lifecycle. The value 3 "is never held", so it has no constructor. -/
inductive Mode where
  /-- 0: no destinations are bound. -/
  | unconf
  /-- 1: constructed and consuming its source. -/
  | run
  /-- 2: the source has ended and the destinations have been told. -/
  | ended
deriving DecidableEq, Repr

/-- `PHASE` (R23): the state of the Deframer state machine. -/
inductive Phase where
  /-- 0: `AWAITING_HEADER`. -/
  | header
  /-- 1: `AWAITING_PAYLOAD`. -/
  | payload
deriving DecidableEq, Repr

/-- The errors of R201, by name. -/
inductive ErrorName where
  /-- Code 1 (R202). -/
  | invalidConfiguration
  /-- Code 2 (R203). -/
  | unroutableChannel
  /-- Code 3: reserved, never emitted (R204). -/
  | truncatedStream
deriving DecidableEq, Repr

/-- The fields of an error event (R201), also what the error strobe shows (R234, R237). -/
structure ErrWord where
  /-- `err_code`. -/
  code : BitVec 2
  /-- `err_arg`. -/
  arg : Byte
  /-- `err_len`. -/
  len : Len
deriving DecidableEq, Repr

/-- An output event of `Step` (R10). -/
inductive Event where
  /-- `Write(c, p)`: one whole chunk to destination `c`. -/
  | write (c : BitVec 3) (p : List Byte)
  /-- `Err(code, arg, len)`. -/
  | err (e : ErrWord)
  /-- `End(m)`: end of stream to every destination `c` with `m[c] = 1`. -/
  | endTo (m : Byte)
deriving DecidableEq, Repr

/-- One beat of a chunk on the destination port (R234, R236). -/
structure Beat where
  /-- `dst_chan`. -/
  chan : BitVec 3
  /-- `dst_data`. -/
  data : Byte
  /-- `dst_last`. -/
  last : Bool
  /-- `dst_empty`. -/
  empty : Bool
deriving DecidableEq, Repr

/-- The input pins sampled at one rising edge of `clk` (R234). -/
structure Pins where
  /-- `rst_n`, active low (R230). -/
  rstN : Bool
  /-- `in_valid`. -/
  inValid : Bool
  /-- `in_word`. -/
  inWord : TxnWord
  /-- `dst_ready`. -/
  dstReady : Bool
deriving DecidableEq, Repr

/-- What the outside samples at an edge from the block's output ports, and the reset edges it sees (R236, R237, R239). -/
inductive PortSignal where
  /-- A beat transferred: `dst_valid` and `dst_ready` were both 1. -/
  | beat (b : Beat)
  /-- The cycle's `err_valid` strobe with its fields. -/
  | errStrobe (e : ErrWord)
  /-- The cycle's `dst_end_valid` strobe with `dst_end_mask`. -/
  | endStrobe (m : Byte)
  /-- An edge with `rst_n = 0`. -/
  | resetEdge
deriving DecidableEq, Repr

/-- The reasons a step can stop with a fault. -/
inductive Fault where
  /-- A header announces more payload than the buffer holds: D9 and U10 give this treatment ("oversize") to a block
  built with a smaller `PAYLOAD_CAP`. Raised by the header decoder only; with the conforming `PAYLOAD_CAP = 2^32 − 1` no
  header can raise it. Safe: the machine stops rather than choose a value. -/
  | oversize
deriving DecidableEq, Repr

/-- The reasons a step can be refused. -/
inductive Refusal where
  /-- An instruction whose meaning is not written. Raised by an arm of `exec` only, and no arm raises it: every row of
  the table has its meaning. Safe. -/
  | notModelled (mnemonic : String)
deriving DecidableEq, Repr

/-- The whole state. The first eleven fields are the architectural state of R20, each with the width of that table; the
next four are the registers of the port mapping (R234–R237); the last six are the model's own (log entries 1, 3, 6, 9). -/
structure State where
  /-- `MODE` (R21), 2 bits. -/
  mode : Mode
  /-- `NDEST` (R22): the number of bound destinations. -/
  ndest : BitVec 4
  /-- `PHASE` (R23), 1 bit. -/
  phase : Phase
  /-- `HCNT` (R24): header bytes held. -/
  hcnt : BitVec 3
  /-- `HBUF` (R25): the header bytes held, byte `k` at bits `31−8k : 24−8k`. -/
  hbuf : BitVec 32
  /-- `CHAN` (R26): the pending header's `channel_id`. -/
  chan : Byte
  /-- `LEN` (R27): the pending header's `payload_length`. -/
  len : Len
  /-- `REM` (R28): payload bytes still to come. -/
  rem : Len
  /-- `PBUF` (R29): the payload bytes held, in arrival order. -/
  pbuf : List Byte
  /-- `ILL` (R30): the sticky protocol-violation bit. -/
  ill : Bool
  /-- `CFGERR` (R31). -/
  cfgerr : Bool
  /-- Whether `rst_n` was 1 at the last edge, which `in_ready` depends on (R235). -/
  rstHigh : Bool
  /-- The beats of the chunk being drained that have not transferred yet, oldest first (R236); empty when none is. -/
  pending : List Beat
  /-- The error strobe of this cycle: `err_valid` and its fields (R237). -/
  errOut : Option ErrWord
  /-- The end strobe of this cycle: `dst_end_valid` and `dst_end_mask` (R237). -/
  endOut : Option Byte
  /-- MODEL'S OWN: the pin samples of the coming edges, the next one first (log entry 1). -/
  inputs : List Pins
  /-- MODEL'S OWN: every event emitted so far, in emission order (the observation of R10). -/
  events : List Event
  /-- MODEL'S OWN: what the outside has sampled from the output ports so far, in order (log entry 3). -/
  portLog : List PortSignal
  /-- MODEL'S OWN: how many draws of the free value `Config.unwrittenPbufByte` have been made (log entry 6). -/
  draws : Nat
  /-- MODEL'S OWN: how many cycles are still to pass before the first pending beat is presented (R236, R244; log entry 9). -/
  gap : Nat
  /-- MODEL'S OWN: how many draws of the free value `Config.beatGap` have been made (log entry 9). -/
  gapDraws : Nat
deriving DecidableEq, Repr

/-- The machine right after a reset edge (R231): every field of R20 at its reset value, no beat pending, every strobe 0,
`rst_n` low at the last edge; no input given and nothing put out yet. -/
def State.reset : State where
  mode := .unconf
  ndest := 0#4
  phase := .header
  hcnt := 0#3
  hbuf := 0#32
  chan := 0#8
  len := 0#32
  rem := 0#32
  pbuf := []
  ill := false
  cfgerr := false
  rstHigh := false
  pending := []
  errOut := none
  endOut := none
  inputs := []
  events := []
  portLog := []
  draws := 0
  gap := 0
  gapDraws := 0

end Sys2Proof.Machine
end

