-- ==== Sys2Proof/Machine/Operands.lean ====
section
/-! DEFINITION. How operands and fields are assembled (`30_encoding.md` R76, `00_scope.md` R8, R9): the operand of `CFG`, the
mask of the bound destinations, the byte slices of `HBUF`, the numeric codes of `MODE`, `PHASE` and the errors, and the
beats of a chunk. Nothing is sign-extended, scaled or shifted (R76). -/

namespace Sys2Proof.Machine

/-- `N = zext_8(ARG[3:0])` (R76). -/
def cfgCount (n : BitVec 4) : Byte := n.zeroExtend 8

/-- `zext_8(NDEST)`, what a channel id is compared with (R135). -/
def boundCount (ndest : BitVec 4) : Byte := ndest.zeroExtend 8

/-- `lowmask8(k)` of R9: the bits below `k` set, the others clear; destination `c` is told iff `c < NDEST` (R181). -/
def lowmask8 (k : BitVec 4) : Byte := BitVec.ofNat 8 (2 ^ k.toNat - 1)

/-- Header byte `k` of `HBUF`, at `HBUF[31−8k : 24−8k]` (R25). -/
def hbufByte (k : Nat) (h : BitVec 32) : Byte := h.extractLsb' (24 - 8 * k) 8

/-- `HBUF[31−8k : 24−8k] <- b` (R131), for `k` = 0..3. -/
def setHbufByte (k : Nat) (b : Byte) (h : BitVec 32) : BitVec 32 :=
  match k with
  | 0 => b ++ h.extractLsb' 0 24
  | 1 => h.extractLsb' 24 8 ++ b ++ h.extractLsb' 0 16
  | 2 => h.extractLsb' 16 16 ++ b ++ h.extractLsb' 0 8
  | _ => h.extractLsb' 8 24 ++ b

/-- `HBUF[31:24]`: the `channel_id` of a header whose first four bytes are held (R132). -/
def hbufChannel (h : BitVec 32) : Byte := h.extractLsb' 24 8

/-- `HBUF[23:0] ++ b4`: the `payload_length` once header byte 4 has come (R132). -/
def hbufLength (h : BitVec 32) (b4 : Byte) : Len := h.extractLsb' 0 24 ++ b4

/-- The 2-bit code of `MODE` (R20). -/
def Mode.bits : Mode → BitVec 2
  | .unconf => 0#2
  | .run => 1#2
  | .ended => 2#2

/-- The 1-bit code of `PHASE` (R20, R23). -/
def Phase.bits : Phase → BitVec 1
  | .header => 0#1
  | .payload => 1#1

/-- The numeric error codes of R201. -/
def ErrorName.code : ErrorName → BitVec 2
  | .invalidConfiguration => 1#2
  | .unroutableChannel => 2#2
  | .truncatedStream => 3#2

/-- The beats of a chunk that is not empty (R236): one a byte, the last one marked. -/
def dataBeats (c : BitVec 3) : List Byte → List Beat
  | [] => []
  | b :: rest => ⟨c, b, rest.isEmpty, false⟩ :: dataBeats c rest

/-- The beats of the chunk `Write(c, p)` (R236); the empty chunk is one beat that carries no byte (D8). -/
def beatsOf (c : BitVec 3) : List Byte → List Beat
  | [] => [⟨c, 0#8, true, true⟩]
  | b :: rest => dataBeats c (b :: rest)

end Sys2Proof.Machine
end

