-- ==== Sys2Proof/Machine/Flags.lean ====
section
/-! DEFINITION. The two status flags (`10_state.md` R30, R31, R36) and the `STATUS` register that shows them with the
cursor (R33). -/

namespace Sys2Proof.Machine

/-- `set_ILL()` (R9, R205): the sticky bit is set and nothing else changes. -/
def State.setIll (s : State) : State := { s with ill := true }

/-- `CFGERR <- v`, by a `CFG` accepted in `UNCONF` (R31, R101). -/
def State.setCfgerr (v : Bool) (s : State) : State := { s with cfgerr := v }

/-- `STATUS = zext_16(CFGERR ++ ILL ++ NDEST ++ HCNT ++ PHASE ++ MODE)` (R33). -/
def State.status (s : State) : BitVec 16 :=
  (BitVec.ofBool s.cfgerr ++ BitVec.ofBool s.ill ++ s.ndest ++ s.hcnt ++ s.phase.bits ++ s.mode.bits).zeroExtend 16

end Sys2Proof.Machine
end

