-- ==== Sys2Proof/Machine/Ops.lean ====
section
/-! DEFINITION. The named operations the meanings are made of: the payload buffer (`20_memory.md` R52), the emission of an
event, the raising of an error (`60_exceptions.md` R200–R209), and the sub-operations R131–R138 and R182 of the four parts
of the block. -/

namespace Sys2Proof.Machine

/-! ### The payload buffer -/

/-- Bytes `start .. start + count − 1` of the payload buffer where nothing has written them: free values of one draw. -/
def unwrittenBytes (draw start count : Nat) : List Byte :=
  (List.range count).map fun k => Config.unwrittenPbufByte draw (start + k)

/-- The form the payload buffer keeps: it holds at most `PAYLOAD_CAP` bytes (R20, R29). It is a sequence, so that equal
buffers are equal data. -/
def Memory.wf (m : List Byte) : Bool := m.length ≤ Config.payloadCap

/-- The byte of the payload buffer at offset `i`, `none` where nothing has written one. -/
def State.pbufByte (s : State) (i : Nat) : Option Byte := s.pbuf[i]?

/-- `MemWrite(i, 1, b)` (R9): writes byte `b` at offset `i`, extending the buffer by one byte when `i = |PBUF|`. An offset
beyond that, which no reachable state gives (R52, R32 I5), leaves the bytes between free (log entry 6). -/
def State.memWrite (i : Nat) (b : Byte) (s : State) : State :=
  if i ≤ s.pbuf.length then
    { s with pbuf := s.pbuf.take i ++ b :: s.pbuf.drop (i + 1) }
  else
    { s with
      pbuf := s.pbuf ++ unwrittenBytes s.draws s.pbuf.length (i - s.pbuf.length) ++ [b]
      draws := s.draws + 1 }

/-- The bytes `MemRead(0, n)` returns (R9): the first `n` of the buffer. Where the buffer holds fewer, which no reachable
state shows (R32 I5), the rest are free (log entry 6). -/
def State.memRead (n : Nat) (s : State) : List Byte :=
  s.pbuf.take n ++ unwrittenBytes s.draws s.pbuf.length (n - s.pbuf.length)

/-- The state after `MemRead(0, n)`: reading changes nothing but the count of draws, and that only where a free value
was read. -/
def State.afterRead (n : Nat) (s : State) : State :=
  if n ≤ s.pbuf.length then s else { s with draws := s.draws + 1 }

/-! ### Events and errors -/

/-- `emit e` (R9): the event joins the observation of R10, and the port that carries it is loaded: the beats of a `Write`,
the first of them to be presented in the coming cycle (R236), the error strobe or the end strobe of the coming cycle (R237). -/
def State.emit (e : Event) (s : State) : State :=
  match e with
  | .write c p => { s with events := s.events ++ [e], pending := beatsOf c p, gap := 0 }
  | .err w => { s with events := s.events ++ [e], errOut := some w }
  | .endTo m => { s with events := s.events ++ [e], endOut := some m }

/-- `raise E(arg, len)` (R9, R201): TAKING AN ERROR, the block's only exception. It emits `Err(code(E), arg, len)` and does
nothing else: no state is saved, no mode changes and control goes nowhere (R208), so there is no return from it either
(R209): the caller's next statement runs. -/
def State.raise (e : ErrorName) (arg : Byte) (len : Len) (s : State) : State :=
  s.emit (.err ⟨e.code, arg, len⟩)

/-! ### The cursor -/

/-- `ClearCursor()` (R138). -/
def State.clearCursor (s : State) : State :=
  { s with pbuf := [], chan := 0#8, len := 0#32, rem := 0#32, phase := .header }

/-- `DiscardPartial()` (R182). -/
def State.discardPartial (s : State) : State :=
  { s with pbuf := [], chan := 0#8, len := 0#32, rem := 0#32, hbuf := 0#32, hcnt := 0#3, phase := .header }

/-- `S <- S0` (R102, R231): every field of R20 takes its reset value; the ports and the model's own fields are not of
R20 and stay. -/
def State.resetRegisters (s : State) : State :=
  { s with
    mode := .unconf, ndest := 0#4, phase := .header, hcnt := 0#3, hbuf := 0#32, chan := 0#8
    len := 0#32, rem := 0#32, pbuf := [], ill := false, cfgerr := false }

/-! ### Demultiplexer switch -/

/-- Whether the pending frame's channel indexes a bound destination: `CHAN < zext_8(NDEST)`, unsigned (R135). -/
def State.routable (s : State) : Bool := s.chan.ult (boundCount s.ndest)

/-- `Dispatch()` (R136): the whole payload as one chunk to destination `CHAN[2:0]`. -/
def State.dispatch (s : State) : State :=
  (s.afterRead s.len.toNat).emit (.write (s.chan.extractLsb' 0 3) (s.memRead s.len.toNat))

/-- `Unroutable()` (R137). -/
def State.unroutable (s : State) : State := s.raise .unroutableChannel s.chan s.len

/-- `Complete()` (R135). -/
def State.complete (s : State) : State :=
  (if s.routable then s.dispatch else s.unroutable).clearCursor

/-! ### Header decoder -/

/-- The first branch of `HeaderStep(b)` (R131): header byte `HCNT` is held. -/
def State.holdHeaderByte (b : Byte) (s : State) : State :=
  { s with hbuf := setHbufByte s.hcnt.toNat b s.hbuf, hcnt := s.hcnt + 1#3 }

/-- The assignments of `HeaderComplete` (R132): the pending header is stored and the payload awaited. -/
def State.storeHeader (channelId : Byte) (payloadLength : Len) (s : State) : State :=
  { s with
    chan := channelId, len := payloadLength, rem := payloadLength, hcnt := 0#3, hbuf := 0#32, phase := .payload }

/-- `HeaderComplete` (R132, R133) for the decoded fields: a frame with no payload completes at once. A header that
announces more than `PAYLOAD_CAP` bytes is the fault D9 and U10 name; no 32-bit length does so in a conforming block. -/
def State.headerComplete (channelId : Byte) (payloadLength : Len) (s : State) : Host.Outcome State Fault Refusal :=
  if Config.payloadCap < payloadLength.toNat then .fault .oversize
  else if payloadLength = 0#32 then .next (s.storeHeader channelId payloadLength).complete
  else .next (s.storeHeader channelId payloadLength)

/-- `HeaderStep(b)` (R131). -/
def State.headerStep (b : Byte) (s : State) : Host.Outcome State Fault Refusal :=
  if s.hcnt.ult 4#3 then .next (s.holdHeaderByte b)
  else s.headerComplete (hbufChannel s.hbuf) (hbufLength s.hbuf b)

/-! ### Payload reassembler -/

/-- The offset `LEN − REM` at which the next payload byte goes (R134, R144 (c)). -/
def State.payloadOffset (s : State) : Nat := (s.len - s.rem).toNat

/-- The first two statements of `PayloadStep(b)` (R134): the byte is held and counted. -/
def State.holdPayloadByte (b : Byte) (s : State) : State :=
  { s.memWrite s.payloadOffset b with rem := s.rem - 1#32 }

/-- `PayloadStep(b)` (R134). -/
def State.payloadStep (b : Byte) (s : State) : State :=
  let t := s.holdPayloadByte b
  if t.rem = 0#32 then t.complete else t

end Sys2Proof.Machine
end

