-- ==== Sys2Proof/Machine/Control.lean ====
section
/-! DEFINITION. The control transactions (`40_construction.md`): `NOP` (R100), `CFG` (R101), `SRST` (R102) and the
illegal and reserved words (R103), whose shared operation is `set_ILL()`. -/

namespace Sys2Proof.Machine

/-- `NOP` (R100): no statement, in any mode; the argument is ignored (R77 (e)). -/
def execNop (_arg : Byte) (s : State) : Host.Outcome State Fault Refusal := .next s

/-- `CFG N` (R101). -/
def execCfg (n : BitVec 4) (s : State) : Host.Outcome State Fault Refusal :=
  if s.mode ≠ .unconf then .next s.setIll
  else if 1 ≤ (cfgCount n).toNat ∧ (cfgCount n).toNat ≤ Config.nchMax then
    .next ({ s with ndest := n, mode := .run }.setCfgerr false)
  else
    .next ((s.setCfgerr true).raise .invalidConfiguration (cfgCount n) 0#32)

/-- `SRST` (R102): the effect of the reset pin on every field of R20, and no event. -/
def execSrst (s : State) : Host.Outcome State Fault Refusal := .next s.resetRegisters

/-- A word with `OP` = 0b101 (R103). -/
def execReservedOp5 (_arg : Byte) (s : State) : Host.Outcome State Fault Refusal := .next s.setIll

/-- A word with `OP` = 0b110 (R103). -/
def execReservedOp6 (_arg : Byte) (s : State) : Host.Outcome State Fault Refusal := .next s.setIll

/-- A word with `OP` = 0b111 (R103). -/
def execReservedOp7 (_arg : Byte) (s : State) : Host.Outcome State Fault Refusal := .next s.setIll

/-- An `EOS`, `SRST` or `CFG` word with reserved bits set (R77 (b)–(d), R103). -/
def execIllegalOther (_w : TxnWord) (s : State) : Host.Outcome State Fault Refusal := .next s.setIll

end Sys2Proof.Machine
end

