-- ==== Sys2Proof/Machine/Stream.lean ====
section
/-! DEFINITION. The stream transactions: `BYTE` (`41_byte_stream.md` R130), the frame header it carries (R132) and `EOS`
(`42_end_of_stream.md` R180). -/

namespace Sys2Proof.Machine

/-- `BYTE b` (R130). -/
def execByte (b : Byte) (s : State) : Host.Outcome State Fault Refusal :=
  if s.mode ≠ .run then .next s.setIll
  else if s.phase = .header then s.headerStep b
  else .next (s.payloadStep b)

/-- The frame header (R132): what the block does with the byte that completes the header `(channel_id, payload_length)`,
the header's first four bytes being held. In `RUN` and `AWAITING_HEADER` that is `HeaderComplete`. Elsewhere no header is
being read, and the byte is what R130 makes it: dropped with `ILL` outside `RUN`, a payload byte in `AWAITING_PAYLOAD`
(R66: "Header bytes are interpreted only by the header decoder"). Log entry 5. -/
def execFrameHeader (channelId : Byte) (payloadLength : Len) (s : State) : Host.Outcome State Fault Refusal :=
  if s.mode ≠ .run then .next s.setIll
  else if s.phase = .header then s.headerComplete channelId payloadLength
  else .next (s.payloadStep (payloadLength.extractLsb' 0 8))

/-- `EOS` (R180): every bound destination is told, a partial frame is dropped, and the instance has ended. -/
def execEos (s : State) : Host.Outcome State Fault Refusal :=
  if s.mode ≠ .run then .next s.setIll
  else .next { (s.emit (.endTo (lowmask8 s.ndest))).discardPartial with mode := .ended }

end Sys2Proof.Machine
end

