-- ==== Sys2Proof/Machine/Dispatch.lean ====
section
/-! DEFINITION. The dispatch: each instruction of the opcode table to its meaning. -/

namespace Sys2Proof.Machine

def exec (i : Instr) (s : State) : Host.Outcome State Fault Refusal :=
  match i with
  | .nop arg => Sys2Proof.Machine.execNop arg s
  | .byte b => Sys2Proof.Machine.execByte b s
  | .eos => Sys2Proof.Machine.execEos s
  | .cfg n => Sys2Proof.Machine.execCfg n s
  | .srst => Sys2Proof.Machine.execSrst s
  | .reservedOp5 arg => Sys2Proof.Machine.execReservedOp5 arg s
  | .reservedOp6 arg => Sys2Proof.Machine.execReservedOp6 arg s
  | .reservedOp7 arg => Sys2Proof.Machine.execReservedOp7 arg s
  | .illegalOther w => Sys2Proof.Machine.execIllegalOther w s
  | .frameHeader channelId payloadLength => Sys2Proof.Machine.execFrameHeader channelId payloadLength s

end Sys2Proof.Machine
end

