-- ==== Sys2Proof/Machine/Ports.lean ====
section
/-! DEFINITION. The clocked port interface (`70_reset_and_hazards.md` R234–R242): the output ports as functions of the
state, the input handshake, what happens to the ports at a rising edge, and the fetch of the next word from the pins. -/

namespace Sys2Proof.Machine

/-! ### Input pins -/

/-- The pins of an edge for which no sample is given: no reset, no word presented, the destination side not ready
(log entry 1). -/
def Pins.idle : Pins := ⟨true, false, 0#11, false⟩

/-- The pins sampled at the coming edge. -/
def State.pins (s : State) : Pins := s.inputs.headD Pins.idle

/-! ### Output ports -/

/-- `in_ready` (R235): `rst_n` was 1 at the last edge and no beat is pending. -/
def State.inReady (s : State) : Bool := s.rstHigh && s.pending.isEmpty

/-- `dst_valid` (R234): a beat is pending, and the cycles the implementation leaves before it have passed (log entry 9). -/
def State.dstValid (s : State) : Bool := !s.pending.isEmpty && s.gap == 0

/-- `dst_chan`, `dst_data`, `dst_last` and `dst_empty` (R234, R236); `none` while `dst_valid = 0`, when they have no
meaning and "a model must not read them" (U9). -/
def State.dstBeat (s : State) : Option Beat := if s.gap = 0 then s.pending.head? else none

/-- `err_valid` (R234, R237). -/
def State.errValid (s : State) : Bool := s.errOut.isSome

/-- `dst_end_valid` (R234, R237). -/
def State.dstEndValid (s : State) : Bool := s.endOut.isSome

/-- `DBG_CHAN` (R34). -/
def State.dbgChan (s : State) : Byte := s.chan

/-- `DBG_LEN` (R34). -/
def State.dbgLen (s : State) : Len := s.len

/-- `DBG_REM` (R34). -/
def State.dbgRem (s : State) : Len := s.rem

/-- All the output ports of R234 in one cycle; a group of fields qualified by a valid signal is `none` while that signal
is 0. -/
structure OutputPorts where
  inReady : Bool
  /-- `dst_valid` with `dst_chan`, `dst_data`, `dst_last`, `dst_empty`. -/
  dst : Option Beat
  /-- `dst_end_valid` with `dst_end_mask`. -/
  dstEnd : Option Byte
  /-- `err_valid` with `err_code`, `err_arg`, `err_len`. -/
  err : Option ErrWord
  status : BitVec 16
  dbgChan : Byte
  dbgLen : Len
  dbgRem : Len
deriving DecidableEq, Repr

/-- The output ports in the cycle that this state holds (R241: they show the state after the last accepted word). -/
def State.outputs (s : State) : OutputPorts :=
  ⟨s.inReady, s.dstBeat, s.endOut, s.errOut, s.status, s.dbgChan, s.dbgLen, s.dbgRem⟩

/-! ### A rising edge -/

/-- A word is accepted at an edge with `rst_n`, `in_valid` and `in_ready` all 1 (R235). -/
def State.accepts (s : State) : Bool := s.pins.rstN && s.pins.inValid && s.inReady

/-- A beat transfers at an edge with `dst_valid` and `dst_ready` both 1 (R236). -/
def State.transfers (s : State) : Bool := s.dstValid && s.pins.dstReady

/-- What the outside samples at this edge: the strobes of the cycle that ends (R237), then the beat that transfers
(R236). -/
def State.sampled (s : State) : List PortSignal :=
  (s.errOut.map PortSignal.errStrobe).toList ++ (s.endOut.map PortSignal.endStrobe).toList ++
    (if s.transfers then (s.dstBeat.map PortSignal.beat).toList else [])

/-- Whether this edge leaves a further beat of the chunk to be presented after the one that transfers. -/
def State.beatFollows (s : State) : Bool := s.transfers && !s.pending.tail.isEmpty

/-- The ports after an edge with `rst_n = 1`, but for what an accepted word then does: the sample is used up, the strobes
fall after their one cycle (R237), and a beat that transferred is gone (R236). How many cycles pass before the beat after it is
presented is a free value, since no cycle count may be assumed (R244, log entry 9); a beat once presented stays so. -/
def State.afterEdge (s : State) : State :=
  { s with
    inputs := s.inputs.tail
    rstHigh := true
    portLog := s.portLog ++ s.sampled
    pending := if s.transfers then s.pending.tail else s.pending
    errOut := none
    endOut := none
    gap := if s.beatFollows then Config.beatGap s.gapDraws else s.gap - 1
    gapDraws := if s.beatFollows then s.gapDraws + 1 else s.gapDraws }

/-- An edge with `rst_n = 0` (R230, R231, R239): every field of R20 takes its reset value, the beats still pending are
abandoned, and every strobe is 0 in the next cycle. -/
def State.resetAtEdge (s : State) : State :=
  { s.resetRegisters with
    inputs := s.inputs.tail
    rstHigh := false
    portLog := s.portLog ++ s.sampled ++ [.resetEdge]
    pending := []
    errOut := none
    endOut := none
    gap := 0 }

/-! ### Presenting the next instruction -/

/-- `s` with the word on the input pins of the coming edge and the block ready for it (R235). -/
def State.presentWord (w : TxnWord) (s : State) : State :=
  { s with
    rstHigh := true
    pending := []
    gap := 0
    inputs := ⟨true, true, w, s.pins.dstReady⟩ :: s.inputs.tail }

/-- `s` where the coming edge completes the header `h`: the header's first four bytes are held in an instance that awaits
a header, and its last byte is on the pins. A block that has no instance is given one with all eight destinations
(log entry 4). -/
def State.presentHeader (h : HeaderWord) (s : State) : State :=
  ({ s.clearCursor with
      mode := .run
      ndest := if s.mode = .run then s.ndest else 8#4
      hcnt := 4#3
      hbuf := h.extractLsb' 8 32 } : State).presentWord (txnWord 1#3 (h.extractLsb' 0 8))

end Sys2Proof.Machine
end

