-- ==== Sys2Proof/Machine/Step.lean ====
section
/-! DEFINITION. One step of the machine is one rising edge of `clk` (R234, R235). The transaction-level `Step(S, w)` of R10 and
its runs stand beside it. -/

namespace Sys2Proof.Machine

/-- One rising edge: a reset (R230), or the ports' part of the edge and then, if a word is accepted, the meaning of the
instruction it decodes to (R235, R78). -/
def step (s : State) : Host.Outcome State Fault Refusal :=
  if s.pins.rstN then
    if s.accepts then exec (decodeWord s.pins.inWord) s.afterEdge else .next s.afterEdge
  else .next s.resetAtEdge

/-- `s` with the instruction whose bits are `w` where the next step fetches: a transaction word (11 bits, two whole bytes)
on the input pins, a frame header (40 bits) in the header decoder with its last byte on the pins. -/
def State.withFetchWord (s : State) (nbits w : Nat) : State :=
  if nbits = 40 then s.presentHeader (BitVec.ofNat 40 w) else s.presentWord (BitVec.ofNat 11 w)

/-- `Step(S, w)` of R10: the accepted word is decoded and acted on. -/
def transact (w : TxnWord) (s : State) : Host.Outcome State Fault Refusal := exec (decodeWord w) s

/-- A run of R10: the words are folded through `Step`. -/
def transactAll : List TxnWord → State → Host.Outcome State Fault Refusal
  | [], s => .next s
  | w :: ws, s =>
    match transact w s with
    | .next t => transactAll ws t
    | .fault r => .fault r
    | .refused r => .refused r

/-- `k` rising edges, stopping at the first that gives no next state. -/
def edges : Nat → State → Host.Outcome State Fault Refusal
  | 0, s => .next s
  | k + 1, s =>
    match step s with
    | .next t => edges k t
    | .fault r => .fault r
    | .refused r => .refused r

end Sys2Proof.Machine
end

