-- ==== Sys2Proof/Machine/Asm.lean ====
section
/-! DEFINITION. The assembler syntax of `30_encoding.md` Part C: the lines of R80, the pseudo-instructions of R81, and the text
they are written in. A line that is not of this syntax, or an operand outside its range, is an assembly error: `none`. -/

namespace Sys2Proof.Machine

/-! ### Lines and their words -/

/-- One line of a transaction program (R80, R81), operands as written. -/
inductive AsmLine where
  | nop
  | byte (imm8 : Nat)
  | eos
  | cfg (imm4 : Nat)
  | srst
  /-- `.word 0x…`: any 11-bit word, illegal ones too. -/
  | word (w : Nat)
  | bytes (bs : List Nat)
  | hdr (c l : Nat)
  | frame (c : Nat) (p : List Nat)
deriving DecidableEq, Repr

/-- The word of a `BYTE`. -/
def byteWord (b : Byte) : TxnWord := txnWord 1#3 b

/-- The bytes of a list of operands, each 0..255. -/
def asmBytes : List Nat → Option (List Byte)
  | [] => some []
  | n :: rest => if n < 256 then (asmBytes rest).map (BitVec.ofNat 8 n :: ·) else none

/-- The words a line assembles to (R80, R81). -/
def assembleLine : AsmLine → Option (List TxnWord)
  | .nop => some [txnWord 0#3 0#8]
  | .byte n => if n < 256 then some [byteWord (BitVec.ofNat 8 n)] else none
  | .eos => some [txnWord 2#3 0#8]
  | .cfg n => if n < 16 then some [txnWord 3#3 (BitVec.ofNat 8 n)] else none
  | .srst => some [txnWord 4#3 0#8]
  | .word w => if w < 2 ^ 11 then some [BitVec.ofNat 11 w] else none
  | .bytes bs => (asmBytes bs).map (·.map byteWord)
  | .hdr c l =>
    if c < 256 ∧ l < 2 ^ 32 then some ((headerBytes (BitVec.ofNat 8 c) (BitVec.ofNat 32 l)).map byteWord) else none
  | .frame c p =>
    if c < 256 ∧ p.length < 2 ^ 32 then
      (asmBytes p).map fun bs => (frameBytes (BitVec.ofNat 8 c) bs).map byteWord
    else none

/-- The words of a program, line by line. -/
def assemble : List AsmLine → Option (List TxnWord)
  | [] => some []
  | l :: rest =>
    match assembleLine l, assemble rest with
    | some ws, some vs => some (ws ++ vs)
    | _, _ => none

/-! ### The text of a line -/

/-- A piece of a line: a run of characters, a character or string literal, or a comma. -/
inductive AsmToken where
  | atom (cs : List Char)
  | chr (c : Char)
  | str (cs : List Char)
  | comma
deriving DecidableEq, Repr

/-- Where the reader of a line is: between pieces, in a run, in a literal, in the comment, or past an error. The pieces
read so far stand newest first, and the characters of an open piece too. -/
inductive AsmScan where
  | between (done : List AsmToken)
  | atom (done : List AsmToken) (cs : List Char)
  | chr (done : List AsmToken) (cs : List Char)
  | str (done : List AsmToken) (cs : List Char)
  | comment (done : List AsmToken)
  | bad
deriving DecidableEq, Repr

/-- A character met between pieces (or just after a run). R80 leaves the spacing in a line open: that a carriage return is a
blank as a space and a tab are, and that a piece may touch its neighbour with no blank between (`BYTE'x'`), is the model's
choice (log entry 12). -/
def AsmScan.start (done : List AsmToken) (c : Char) : AsmScan :=
  if c = ' ' ∨ c = '\t' ∨ c = '\r' then .between done
  else if c = ';' then .comment done
  else if c = ',' then .between (.comma :: done)
  else if c = '\'' then .chr done []
  else if c = '"' then .str done []
  else .atom done [c]

/-- Whether a character ends a run: a blank, or the first character of another piece (log entry 12). -/
def endsAtom (c : Char) : Bool := [' ', '\t', '\r', ';', ',', '\'', '"'].contains c

/-- One character more. A `;` starts a comment (R80); that it does not inside a literal is the model's choice (log
entry 12). -/
def AsmScan.next (s : AsmScan) (c : Char) : AsmScan :=
  match s with
  | .between done => .start done c
  | .atom done cs => if endsAtom c then .start (.atom cs.reverse :: done) c else .atom done (c :: cs)
  | .chr done [x] => if c = '\'' then .between (.chr x :: done) else .bad
  | .chr done [] => .chr done [c]
  | .chr _ _ => .bad
  | .str done cs => if c = '"' then .between (.str cs.reverse :: done) else .str done (c :: cs)
  | .comment done => .comment done
  | .bad => .bad

/-- The pieces of a line, `none` if a literal is left open. -/
def asmTokens (line : List Char) : Option (List AsmToken) :=
  match line.foldl AsmScan.next (.between []) with
  | .between done => some done.reverse
  | .atom done cs => some (.atom cs.reverse :: done).reverse
  | .comment done => some done.reverse
  | _ => none

/-- The value of a digit in a base up to 16; the letters are taken in either case (log entry 12). -/
def digitValue (base : Nat) (c : Char) : Option Nat :=
  let d :=
    if '0' ≤ c ∧ c ≤ '9' then c.toNat - '0'.toNat
    else if 'a' ≤ c ∧ c ≤ 'f' then c.toNat - 'a'.toNat + 10
    else if 'A' ≤ c ∧ c ≤ 'F' then c.toNat - 'A'.toNat + 10
    else base
  if d < base then some d else none

/-- The value of a run of digits, `none` if one is no digit. -/
def digitsValue (base : Nat) (cs : List Char) : Option Nat :=
  cs.foldl (fun acc c => acc.bind fun n => (digitValue base c).map (n * base + ·)) (some 0)

/-- A decimal or `0x` hexadecimal number (R80). -/
def asmNumber : List Char → Option Nat
  | [] => none
  | '0' :: 'x' :: [] => none
  | '0' :: 'x' :: ds => digitsValue 16 ds
  | ds => digitsValue 10 ds

/-- The ASCII code of a character (R80, G2); a character outside ASCII has none. -/
def asciiCode (c : Char) : Option Nat := if c.toNat < 128 then some c.toNat else none

/-- The ASCII codes of a text, left to right (R81). -/
def asciiCodes : List Char → Option (List Nat)
  | [] => some []
  | c :: rest =>
    match asciiCode c, asciiCodes rest with
    | some n, some ns => some (n :: ns)
    | _, _ => none

/-- An `imm8`: a number, or a character literal (R80). -/
def asmImm8 : AsmToken → Option Nat
  | .atom cs => asmNumber cs
  | .chr c => asciiCode c
  | _ => none

/-- One or more `imm8` with commas between (R81). -/
def asmImm8List : List AsmToken → Option (List Nat)
  | [] => none
  | [t] => (asmImm8 t).map ([·])
  | t :: .comma :: rest =>
    match asmImm8 t, asmImm8List rest with
    | some n, some ns => some (n :: ns)
    | _, _ => none
  | _ => none

/-- The bytes of a payload operand: one text, or a list of bytes (R81). -/
def asmPayload : List AsmToken → Option (List Nat)
  | [.str cs] => asciiCodes cs
  | ts => asmImm8List ts

/-- The line a list of pieces says; a line of no pieces is `some none`, one that is not of the syntax is `none`. -/
def asmLineOf : List AsmToken → Option (Option AsmLine)
  | [] => some none
  | .atom m :: ts =>
    if m = ['N', 'O', 'P'] then if ts = [] then some (some .nop) else none
    else if m = ['E', 'O', 'S'] then if ts = [] then some (some .eos) else none
    else if m = ['S', 'R', 'S', 'T'] then if ts = [] then some (some .srst) else none
    else if m = ['B', 'Y', 'T', 'E'] then
      match ts with
      | [t] => (asmImm8 t).map fun n => some (.byte n)
      | _ => none
    else if m = ['C', 'F', 'G'] then
      match ts with
      | [.atom n] => (asmNumber n).map fun n => some (.cfg n)
      | _ => none
    else if m = ['.', 'w', 'o', 'r', 'd'] then
      match ts with
      | [.atom ('0' :: 'x' :: ds)] => (asmNumber ('0' :: 'x' :: ds)).map fun n => some (.word n)
      | _ => none
    else if m = ['B', 'Y', 'T', 'E', 'S'] then (asmPayload ts).map fun bs => some (.bytes bs)
    else if m = ['H', 'D', 'R'] then
      match ts with
      | [c, .comma, .atom l] =>
        match asmImm8 c, asmNumber l with
        | some c, some l => some (some (.hdr c l))
        | _, _ => none
      | _ => none
    else if m = ['F', 'R', 'A', 'M', 'E'] then
      match ts with
      | c :: .comma :: p =>
        match asmImm8 c, asmPayload p with
        | some c, some p => some (some (.frame c p))
        | _, _ => none
      | _ => none
    else none
  | _ => none

/-- One line of text: the line it says, `some none` for a blank or comment line, `none` for an assembly error. -/
def parseAsmLine (line : List Char) : Option (Option AsmLine) := (asmTokens line).bind asmLineOf

/-- The lines of a text, cut at each line break. -/
def textLines : List Char → List (List Char)
  | [] => [[]]
  | c :: rest =>
    match textLines rest with
    | [] => [[c]]
    | l :: ls => if c = '\n' then [] :: l :: ls else (c :: l) :: ls

/-- The lines of a program's text. -/
def parseAsm (text : List Char) : Option (List AsmLine) :=
  (textLines text).foldr
    (fun l acc => acc.bind fun ls => (parseAsmLine l).map fun x => x.toList ++ ls) (some [])

/-- The words of a program's text (R80, R81). -/
def assembleText (text : List Char) : Option (List TxnWord) := (parseAsm text).bind assemble

end Sys2Proof.Machine
end

