-- ==== Sys2Proof/Machine/Dest.lean ====
section
/-! DEFINITION. The destination side of the port, as R236, R239 and R53 have a model of it treat what it samples: beats are
put together to chunks, a chunk counts as delivered at its last beat, and a chunk that a reset cut off is discarded. -/

namespace Sys2Proof.Machine

/-- What the destination side holds: the chunks delivered whole, in order, each with its destination, and the bytes of
the chunk that is still open. -/
structure DestView where
  delivered : List (BitVec 3 × List Byte)
  held : List Byte
deriving DecidableEq, Repr

/-- One sampled signal. An empty beat carries no byte (R236); the beat marked last closes the chunk; a reset discards an
open chunk (R239). -/
def DestView.sees (d : DestView) : PortSignal → DestView
  | .beat b =>
    let bytes := if b.empty then d.held else d.held ++ [b.data]
    if b.last then ⟨d.delivered ++ [(b.chan, bytes)], []⟩ else ⟨d.delivered, bytes⟩
  | .resetEdge => ⟨d.delivered, []⟩
  | .errStrobe _ => d
  | .endStrobe _ => d

/-- The destination side after a record of sampled signals. -/
def destView (log : List PortSignal) : DestView := log.foldl DestView.sees ⟨[], []⟩

/-- The chunks delivered to destination `c`, in order (R53, R63). -/
def deliveredTo (c : BitVec 3) (log : List PortSignal) : List (List Byte) :=
  ((destView log).delivered.filter fun d => d.1 == c).map fun d => d.2

/-- The `Write` events of an observation, in order. -/
def writesOf : List Event → List (BitVec 3 × List Byte)
  | [] => []
  | .write c p :: rest => (c, p) :: writesOf rest
  | .err _ :: rest => writesOf rest
  | .endTo _ :: rest => writesOf rest

/-- How often an observation tells destination `c` that the stream has ended (R181, R183). -/
def timesTold (c : Nat) : List Event → Nat
  | [] => 0
  | .endTo m :: rest => (if m.getLsbD c then 1 else 0) + timesTold c rest
  | .write _ _ :: rest => timesTold c rest
  | .err _ :: rest => timesTold c rest

end Sys2Proof.Machine
end

