-- ==== Sys2Proof/Safety.lean ====
section
/-! DEFINITION. What counts as a good state and a good run, in the terms the statements use: the invariants of `10_state.md`
R32, those of the port mapping, what the destination side may hold, and the host's duties. -/

namespace Sys2Proof.Machine

/-! ### The invariants of R32 -/

/-- (I1): the fields keep to their legal values (`MODE` has no illegal one). -/
abbrev LegalFields (s : State) : Prop := s.hcnt.toNat ≤ 4 ∧ s.ndest.toNat ≤ Config.nchMax

/-- (I2): no destination is bound exactly in `UNCONF`. -/
abbrev BoundIffConstructed (s : State) : Prop := s.mode = .unconf ↔ s.ndest = 0#4

/-- The cursor is empty (R12 "Parser cursor", I3). -/
abbrev CursorEmpty (s : State) : Prop :=
  s.phase = .header ∧ s.hcnt = 0#3 ∧ s.hbuf = 0#32 ∧ s.chan = 0#8 ∧ s.len = 0#32 ∧ s.rem = 0#32 ∧ s.pbuf = []

/-- (I3): outside `RUN` the cursor is empty. -/
abbrev EmptyOutsideRun (s : State) : Prop := s.mode ≠ .run → CursorEmpty s

/-- (I4): awaiting a header, no header is pending and the bytes of `HBUF` not yet received read as 0. -/
abbrev HeaderPhaseForm (s : State) : Prop :=
  s.phase = .header →
    s.chan = 0#8 ∧ s.len = 0#32 ∧ s.rem = 0#32 ∧ s.pbuf = [] ∧
      ∀ k < 4, s.hcnt.toNat ≤ k → hbufByte k s.hbuf = 0#8

/-- (I5): awaiting payload, no header byte is held, at least one payload byte is still to come, and the buffer holds the
others. -/
abbrev PayloadPhaseForm (s : State) : Prop :=
  s.phase = .payload →
    s.hcnt = 0#3 ∧ s.hbuf = 0#32 ∧ 1 ≤ s.rem.toNat ∧ s.rem.toNat ≤ s.len.toNat ∧
      s.pbuf.length + s.rem.toNat = s.len.toNat

/-- R32: (I1) to (I5) together. -/
abbrev ArchInv (s : State) : Prop :=
  LegalFields s ∧ BoundIffConstructed s ∧ EmptyOutsideRun s ∧ HeaderPhaseForm s ∧ PayloadPhaseForm s

/-! ### The invariants of the ports -/

/-- The port registers agree with each other and with the lifecycle: a drain happens only in `RUN`, to bound
destinations, with no strobe beside it (R236, R237); two strobes never coincide (R237); an end strobe tells exactly the
bound destinations of an ended instance (R181); after a reset edge every strobe is 0 and nothing drains (R231). -/
abbrev PortInv (s : State) : Prop :=
  (s.pending ≠ [] → s.mode = .run ∧ s.errOut = none ∧ s.endOut = none) ∧
  (∀ b ∈ s.pending, b.chan.toNat < s.ndest.toNat) ∧
  (s.errOut = none ∨ s.endOut = none) ∧
  (s.endOut = none ∨ s.endOut = some (lowmask8 s.ndest) ∧ s.mode = .ended) ∧
  (s.rstHigh = false →
    s.pending = [] ∧ s.errOut = none ∧ s.endOut = none ∧ s.mode = .unconf ∧ s.ndest = 0#4 ∧ CursorEmpty s ∧
      s.ill = false ∧ s.cfgerr = false)

/-- What the destination side holds against the events: with no chunk on the port, no bytes are open and the delivered
chunks are some of the `Write` events, in order; while a chunk drains, its open bytes and the pending beats make up the
last `Write` event. (A `Write` is missing from the delivered chunks only where a reset cut it off, R239.) -/
def DeliveryInv (s : State) : Prop :=
  (s.pending = [] →
    (destView s.portLog).held = [] ∧ (destView s.portLog).delivered.Sublist (writesOf s.events)) ∧
  (s.pending ≠ [] →
    ∃ ws c rest, s.pending = beatsOf c rest ∧
      writesOf s.events = ws ++ [(c, (destView s.portLog).held ++ rest)] ∧
      (destView s.portLog).delivered.Sublist ws)

/-- Two states agree on every field of R20 and on the events emitted (and on the draws of the free value): they are one
state of the transaction-level `Step` (R10), whatever their ports show. -/
abbrev SameTransactionState (s t : State) : Prop :=
  s.mode = t.mode ∧ s.ndest = t.ndest ∧ s.phase = t.phase ∧ s.hcnt = t.hcnt ∧ s.hbuf = t.hbuf ∧ s.chan = t.chan ∧
  s.len = t.len ∧ s.rem = t.rem ∧ s.pbuf = t.pbuf ∧ s.ill = t.ill ∧ s.cfgerr = t.cfgerr ∧ s.events = t.events ∧
  s.draws = t.draws

/-! ### What payload values may show in -/

/-- An event but for the values of a chunk's bytes: its kind, its destination and the chunk's length, or its error or end
fields. -/
def Event.shape : Event → Event
  | .write c p => .write c (List.replicate p.length 0#8)
  | .err e => .err e
  | .endTo m => .endTo m

/-- A beat but for the value of its byte. -/
def Beat.shape (b : Beat) : Beat := { b with data := 0#8 }

/-! ### Good runs -/

/-- No protocol violation is recorded: what a claim about a run takes as a premise at its end (R205, U8). -/
abbrev NoViolation (s : State) : Prop := s.ill = false

/-- R242 (a) at one edge: a word that is presented and not accepted stands on the pins at the next edge too. That the host
keeps `in_valid` at 1 as well is the model's choice (log entry 16): R235 and R242 (a) bind `in_word` while `in_valid = 1` and do
not say whether the host may lower `in_valid` first. -/
abbrev HostHolds (s : State) : Prop :=
  s.pins.inValid = true → s.accepts = false →
    (s.inputs.tail.headD Pins.idle).inValid = true ∧ (s.inputs.tail.headD Pins.idle).inWord = s.pins.inWord

/-- A step is safe when it gives a next state. -/
def stepSafe (s : State) : Bool :=
  match step s with
  | .next _ => true
  | .fault _ => false
  | .refused _ => false

end Sys2Proof.Machine
end

