-- ==== Sys2Proof/Certificates/Slice0/Obligations.lean ====
section
/-! DEFINITION. The statements for the provers. Each docstring names the rule of `spec/` it formalises. A statement about every
state holds in states no run reaches too, unless it takes the invariant `ArchInv` of R32 (or a part of it) as a premise;
that every step keeps `ArchInv` is the statement `StepKeepsTheArchitecturalInvariants`. What `exec` does to the port registers
in a state with a beat pending, which no step gives it, is the model's choice (log entry 15). What a statement over every
instruction says of the frame header, which is no transaction of the spec, is the model's choice too (log entry 5). -/

open Sys2Proof Sys2Proof.Machine

/-! ### Encoding -/

/-- R71–R78: decoding the encoding of a well-formed instruction gives the instruction, with every operand at every
value. -/
def Obligations.DecodeOfEncodeIsTheInstruction : Prop :=
  ∀ i : Instr, i.wellFormed = true → decode (encode i) = i

/-- R72, R77: every 11-bit word and every 40-bit header decodes to a well-formed instruction that encodes to it again, so
no two words share an instruction and no bit is dropped. -/
def Obligations.EncodeOfDecodeIsTheWord : Prop :=
  ∀ e : Encoded, (decode e).wellFormed = true ∧ encode (decode e) = e

/-- R79: the first table row that matches decodes each of the 2048 words as `Decode` does, and of the rows before the
default row no word matches two. -/
def Obligations.TableDecoderAgreesWithDecode : Prop :=
  (∀ w : TxnWord, tableDecode w = some (decodeWord w)) ∧
  ∀ w : TxnWord, (opcodeTable.dropLast.filter fun r => r.takes w).length ≤ 1

/-- R75, R77: a few words written out from the spec's encodings, one or more for each family. -/
def Obligations.WrittenOutWordsDecode : Prop :=
  decodeWord 0b000_11111111#11 = .nop 0xFF#8 ∧ decodeWord 0b001_01100110#11 = .byte 0x66#8 ∧
  decodeWord 0b010_00000000#11 = .eos ∧ decodeWord 0b011_0000_1001#11 = .cfg 9#4 ∧
  decodeWord 0b100_00000000#11 = .srst ∧ decodeWord 0b101_00000000#11 = .reservedOp5 0#8 ∧
  decodeWord 0b010_00000001#11 = .illegalOther 0x201#11 ∧
  decodeHeader 0x0712345678#40 = .frameHeader 0x07#8 0x12345678#32

/-- R73, R139: a decoder that reads the five header bytes of `frame(c, p)` reads `c` and `|p|`, and the payload follows
them. -/
def Obligations.FrameHeaderTellsTheLength : Prop :=
  ∀ (c : Byte) (p : List Byte), p.length < 2 ^ 32 →
    ∃ b0 b1 b2 b3 b4, frameBytes c p = [b0, b1, b2, b3, b4] ++ p ∧
      decodeHeader (headerOfBytes b0 b1 b2 b3 b4) = .frameHeader c (BitVec.ofNat 32 p.length)

/-- R81, R73: `FRAME c, p` assembles to the `BYTE` words of `frame(c, p)`, and to the same words as `HDR c, n` and then
`BYTES p`, with `n` the payload length. -/
def Obligations.FrameLineAssemblesToTheFrame : Prop :=
  ∀ (c : Byte) (p : List Byte), p.length < 2 ^ 32 →
    assembleLine (.frame c.toNat (p.map BitVec.toNat)) = some ((frameBytes c p).map byteWord) ∧
    assemble [.hdr c.toNat p.length, .bytes (p.map BitVec.toNat)] = some ((frameBytes c p).map byteWord)

/-! ### Reset -/

/-- R231: the reset values, `STATUS` and the debug ports after reset. -/
def Obligations.ResetValues : Prop :=
  State.reset.mode = .unconf ∧ State.reset.ndest = 0#4 ∧ State.reset.phase = .header ∧ State.reset.hcnt = 0#3 ∧
  State.reset.hbuf = 0#32 ∧ State.reset.chan = 0#8 ∧ State.reset.len = 0#32 ∧ State.reset.rem = 0#32 ∧
  State.reset.pbuf = [] ∧ State.reset.ill = false ∧ State.reset.cfgerr = false ∧
  State.reset.status = 0x000#16 ∧ State.reset.dbgChan = 0#8 ∧ State.reset.dbgLen = 0#32 ∧ State.reset.dbgRem = 0#32

/-- R231, R239: at an edge with `rst_n = 0`, in any state, every field of R20 takes its reset value, `STATUS` and the
debug ports read 0, no event is emitted, the beats still pending are abandoned, every strobe is 0 in the next cycle and no
word can be accepted in it; no word is accepted at this edge, whatever the pins show. -/
def Obligations.ResetEdgeResetsTheBlock : Prop :=
  ∀ s : State, s.pins.rstN = false →
    ∃ t log g, step s = .next t ∧
      t = { s with
        mode := .unconf, ndest := 0#4, phase := .header, hcnt := 0#3, hbuf := 0#32, chan := 0#8, len := 0#32
        rem := 0#32, pbuf := [], ill := false, cfgerr := false
        pending := [], gap := g, errOut := none, endOut := none, rstHigh := false
        inputs := s.inputs.tail, portLog := log } ∧
      t.status = 0x000#16 ∧ t.dbgChan = 0#8 ∧ t.dbgLen = 0#32 ∧ t.dbgRem = 0#32 ∧ t.inReady = false

/-- R32 at reset: (I1) to (I5), the port invariants and the form of the deliveries hold right after reset. -/
def Obligations.ResetMeetsTheInvariants : Prop :=
  ArchInv State.reset ∧ PortInv State.reset ∧ DeliveryInv State.reset

/-! ### Control transactions -/

/-- R100: `NOP` changes nothing and emits nothing, in any state; every word with `OP = 0b000`, whatever its `ARG`, is a
`NOP`. -/
def Obligations.NopChangesNothing : Prop :=
  (∀ (arg : Byte) (s : State), exec (.nop arg) s = .next s) ∧
  ∀ (w : TxnWord) (s : State), opField w = 0b000#3 → transact w s = .next s

/-- R101: in `UNCONF`, `CFG N` with `1 ≤ N ≤ 8` binds `N` destinations, starts the instance and clears `CFGERR`; nothing
else changes. -/
def Obligations.CfgBindsOneToEightDestinations : Prop :=
  ∀ (n : BitVec 4) (s : State), s.mode = .unconf → 1 ≤ n.toNat → n.toNat ≤ 8 →
    exec (.cfg n) s = .next { s with mode := .run, ndest := n, cfgerr := false }

/-- R101, R202: in `UNCONF`, `CFG N` with any other `N` raises `InvalidConfiguration(N, 0)` in the same transaction and
sets `CFGERR`; nothing else changes. -/
def Obligations.CfgRaisesInvalidConfiguration : Prop :=
  ∀ (n : BitVec 4) (s : State), s.mode = .unconf → (n.toNat = 0 ∨ 9 ≤ n.toNat) →
    exec (.cfg n) s =
      .next { s with
        cfgerr := true
        events := s.events ++ [.err ⟨1#2, n.zeroExtend 8, 0#32⟩]
        errOut := some ⟨1#2, n.zeroExtend 8, 0#32⟩ }

/-- R102: `SRST`, the word `0x400`, gives every field of R20 its reset value, in every mode, and emits nothing; the ports
are left as they are. -/
def Obligations.SrstResetsEveryRegister : Prop :=
  ∀ s : State,
    exec .srst s =
      .next { s with
        mode := .unconf, ndest := 0#4, phase := .header, hcnt := 0#3, hbuf := 0#32, chan := 0#8, len := 0#32
        rem := 0#32, pbuf := [], ill := false, cfgerr := false } ∧
    transact 0x400#11 s = exec .srst s

/-- R103: every illegal or reserved word sets `ILL` and does nothing else, in every mode; there are 1518 of them. -/
def Obligations.IllegalWordsOnlySetIll : Prop :=
  (∀ (w : TxnWord) (s : State),
    (opField w = 0b101#3 ∨ opField w = 0b110#3 ∨ opField w = 0b111#3 ∨ opField w = 0b010#3 ∧ argField w ≠ 0#8 ∨
      opField w = 0b100#3 ∧ argField w ≠ 0#8 ∨ opField w = 0b011#3 ∧ argHigh w ≠ 0#4) →
    transact w s = .next { s with ill := true }) ∧
  ((List.range 2048).filter fun n =>
    decide (5 ≤ (opField (BitVec.ofNat 11 n)).toNat) || isIllegalOther (BitVec.ofNat 11 n)).length = 1518 ∧
  ∀ (arg : Byte) (w : TxnWord) (s : State),
    exec (.reservedOp5 arg) s = .next { s with ill := true } ∧
    exec (.reservedOp6 arg) s = .next { s with ill := true } ∧
    exec (.reservedOp7 arg) s = .next { s with ill := true } ∧
    exec (.illegalOther w) s = .next { s with ill := true }

/-- R205: an illegal or reserved word, a `CFG` outside `UNCONF`, and a `BYTE` or an `EOS` outside `RUN`, set `ILL`, have no
other effect and emit no event. -/
def Obligations.ProtocolViolationsOnlySetIll : Prop :=
  (∀ (w : TxnWord) (s : State), (5 ≤ (opField w).toNat ∨ isIllegalOther w = true) →
    transact w s = .next { s with ill := true }) ∧
  (∀ (n : BitVec 4) (s : State), s.mode ≠ .unconf → exec (.cfg n) s = .next { s with ill := true }) ∧
  (∀ (b : Byte) (s : State), s.mode ≠ .run → exec (.byte b) s = .next { s with ill := true }) ∧
  (∀ s : State, s.mode ≠ .run → exec .eos s = .next { s with ill := true })

/-! ### `BYTE`: header decoder -/

/-- R131: with fewer than four header bytes held, `BYTE b` in `RUN` and `AWAITING_HEADER` holds `b` as header byte `HCNT`
and counts it; the other bytes of `HBUF` and every other field are unchanged, and no event is emitted. -/
def Obligations.ByteHoldsAHeaderByte : Prop :=
  ∀ (b : Byte) (s : State), s.mode = .run → s.phase = .header → s.hcnt.toNat < 4 →
    ∃ h, exec (.byte b) s = .next { s with hbuf := h, hcnt := s.hcnt + 1#3 } ∧
      ∀ k < 4, hbufByte k h = if k = s.hcnt.toNat then b else hbufByte k s.hbuf

/-- R132: the fifth header byte stores the pending header, `CHAN` from `HBUF[31:24]` and `LEN = REM` from `HBUF[23:0]` and
the byte, and the payload is awaited; nothing else changes. This is the form with a payload to come. -/
def Obligations.FifthHeaderByteStoresTheHeader : Prop :=
  ∀ (b : Byte) (s : State), s.mode = .run → s.phase = .header → s.hcnt = 4#3 →
    s.hbuf.extractLsb' 0 24 ++ b ≠ 0#32 →
    exec (.byte b) s =
      .next { s with
        chan := s.hbuf.extractLsb' 24 8, len := s.hbuf.extractLsb' 0 24 ++ b, rem := s.hbuf.extractLsb' 0 24 ++ b
        hcnt := 0#3, hbuf := 0#32, phase := .payload }

/-- R133: a frame with `payload_length = 0` completes at its fifth header byte: `Write(c, [])` to a bound destination,
`UnroutableChannel(channel_id, 0)` otherwise, and the cursor is empty again. -/
def Obligations.EmptyFrameCompletesAtItsHeader : Prop :=
  ∀ (b : Byte) (s : State), s.mode = .run → s.phase = .header → s.hcnt = 4#3 →
    s.hbuf.extractLsb' 0 24 ++ b = 0#32 →
    exec (.byte b) s =
      if (s.hbuf.extractLsb' 24 8).toNat < s.ndest.toNat then
        .next { s with
          hcnt := 0#3, hbuf := 0#32, chan := 0#8, len := 0#32, rem := 0#32, pbuf := [], phase := .header
          events := s.events ++ [.write ((s.hbuf.extractLsb' 24 8).extractLsb' 0 3) []]
          pending := [⟨(s.hbuf.extractLsb' 24 8).extractLsb' 0 3, 0#8, true, true⟩], gap := 0 }
      else
        .next { s with
          hcnt := 0#3, hbuf := 0#32, chan := 0#8, len := 0#32, rem := 0#32, pbuf := [], phase := .header
          events := s.events ++ [.err ⟨2#2, s.hbuf.extractLsb' 24 8, 0#32⟩]
          errOut := some ⟨2#2, s.hbuf.extractLsb' 24 8, 0#32⟩ }

/-- R71, R132: with four header bytes held, `BYTE b` does what the decoded 40-bit header `HBUF ++ b` does. -/
def Obligations.FifthHeaderByteRunsTheDecodedHeader : Prop :=
  ∀ (b : Byte) (s : State), s.mode = .run → s.phase = .header → s.hcnt = 4#3 →
    exec (.byte b) s = exec (decodeHeader (s.hbuf ++ b)) s

/-- R132, R133: the frame header, in `RUN` and `AWAITING_HEADER`. With a payload to come it stores the
pending header; with none the frame completes at once, to its destination or as unroutable. That it does so whatever header
bytes are held is the model's choice (log entry 5). -/
def Obligations.FrameHeaderIsStoredOrCompletes : Prop :=
  ∀ (c : Byte) (l : Len) (s : State), s.mode = .run → s.phase = .header →
    exec (.frameHeader c l) s =
      if l ≠ 0#32 then
        .next { s with chan := c, len := l, rem := l, hcnt := 0#3, hbuf := 0#32, phase := .payload }
      else if c.toNat < s.ndest.toNat then
        .next { s with
          hcnt := 0#3, hbuf := 0#32, chan := 0#8, len := 0#32, rem := 0#32, pbuf := [], phase := .header
          events := s.events ++ [.write (c.extractLsb' 0 3) []]
          pending := [⟨c.extractLsb' 0 3, 0#8, true, true⟩], gap := 0 }
      else
        .next { s with
          hcnt := 0#3, hbuf := 0#32, chan := 0#8, len := 0#32, rem := 0#32, pbuf := [], phase := .header
          events := s.events ++ [.err ⟨2#2, c, 0#32⟩]
          errOut := some ⟨2#2, c, 0#32⟩ }

/-- Log entry 5 (the model's choice; the header row is no input word): where no header is being read, the frame header does
what its last byte does as a `BYTE`. -/
def Obligations.FrameHeaderElsewhereIsItsLastByte : Prop :=
  ∀ (c : Byte) (l : Len) (s : State), (s.mode ≠ .run ∨ s.phase = .payload) →
    exec (.frameHeader c l) s = exec (.byte (l.extractLsb' 0 8)) s

/-- R54, R71, R131, R132: the five `BYTE` words of a header, from an empty cursor in `RUN`, store `channel_id = b0` and the
big-endian length of `b1..b4` as a number, emit nothing and await the payload (a length that is not 0). -/
def Obligations.HeaderBytesDecodeBigEndian : Prop :=
  ∀ (b0 b1 b2 b3 b4 : Byte) (s : State), s.mode = .run → CursorEmpty s →
    0 < b1.toNat + b2.toNat + b3.toNat + b4.toNat →
    ∃ l : Len, l.toNat = b1.toNat * 2 ^ 24 + b2.toNat * 2 ^ 16 + b3.toNat * 2 ^ 8 + b4.toNat ∧
      transactAll [byteWord b0, byteWord b1, byteWord b2, byteWord b3, byteWord b4] s =
        .next { s with chan := b0, len := l, rem := l, phase := .payload }

/-! ### `BYTE`: payload reassembler and demultiplexer switch -/

/-- R134: a payload byte that is not the last is appended to the buffer and counted; nothing else changes and no event is
emitted. The premise on the buffer is (I5). -/
def Obligations.PayloadByteIsAppended : Prop :=
  ∀ (b : Byte) (s : State), s.mode = .run → s.phase = .payload → 2 ≤ s.rem.toNat →
    s.pbuf.length + s.rem.toNat = s.len.toNat →
    exec (.byte b) s = .next { s with pbuf := s.pbuf ++ [b], rem := s.rem - 1#32 }

/-- R9, R134: a payload byte that is not the last goes to offset `LEN − REM` of the buffer, also in states whose buffer
holds more than that; every other offset reads as before. That the offset is taken modulo 2^32 where `REM > LEN`, which no
reachable state shows, is the model's choice (log entry 7). -/
def Obligations.PayloadByteLandsAtItsOffset : Prop :=
  ∀ (b : Byte) (s : State), s.mode = .run → s.phase = .payload → s.rem ≠ 1#32 →
    (s.len - s.rem).toNat ≤ s.pbuf.length →
    ∃ t, exec (.byte b) s = .next t ∧ t.pbufByte (s.len - s.rem).toNat = some b ∧
      (∀ a, a ≠ (s.len - s.rem).toNat → t.pbufByte a = s.pbufByte a) ∧
      t = { s with pbuf := t.pbuf, rem := s.rem - 1#32 }

/-- R134–R136, R138: the last payload byte of a frame for a bound destination emits one `Write` of the whole payload, loads
its beats on the port, and empties the cursor; nothing else changes. The premise on the buffer is (I5). -/
def Obligations.LastPayloadByteDispatchesTheFrame : Prop :=
  ∀ (b : Byte) (s : State), s.mode = .run → s.phase = .payload → s.rem = 1#32 →
    s.pbuf.length + 1 = s.len.toNat → s.chan.toNat < s.ndest.toNat →
    exec (.byte b) s =
      .next { s with
        pbuf := [], chan := 0#8, len := 0#32, rem := 0#32, phase := .header
        events := s.events ++ [.write (s.chan.extractLsb' 0 3) (s.pbuf ++ [b])]
        pending := beatsOf (s.chan.extractLsb' 0 3) (s.pbuf ++ [b]), gap := 0 }

/-- R137, R138, R203: the last payload byte of a frame for an unbound channel raises `UnroutableChannel(CHAN, LEN)`, emits
no `Write`, and empties the cursor, so that the next byte is header byte 0; nothing else changes. -/
def Obligations.LastPayloadByteReportsUnroutable : Prop :=
  ∀ (b : Byte) (s : State), s.mode = .run → s.phase = .payload → s.rem = 1#32 →
    s.pbuf.length + 1 = s.len.toNat → s.ndest.toNat ≤ s.chan.toNat →
    exec (.byte b) s =
      .next { s with
        pbuf := [], chan := 0#8, len := 0#32, rem := 0#32, phase := .header
        events := s.events ++ [.err ⟨2#2, s.chan, s.len⟩]
        errOut := some ⟨2#2, s.chan, s.len⟩ }

/-- R139, R135–R138: from an empty cursor in `RUN`, any list of frames, fed as `BYTE` words, emits exactly one event a
frame, in stream order: the whole payload to its destination, or `UnroutableChannel` with the frame's id and length. The
registers are then as before the first frame, so that an unroutable frame does not disturb the frames after it. -/
def Obligations.FramesAreDispatchedInStreamOrder : Prop :=
  ∀ (frames : List (Byte × List Byte)) (s : State), s.mode = .run → CursorEmpty s →
    (∀ f ∈ frames, f.2.length < 2 ^ 32) →
    ∃ pend err g,
      transactAll (frames.flatMap fun f => (frameBytes f.1 f.2).map byteWord) s =
        .next { s with
          pending := pend, errOut := err, gap := g
          events := s.events ++ frames.map fun f =>
            if f.1.toNat < s.ndest.toNat then .write (f.1.extractLsb' 0 3) f.2
            else .err ⟨2#2, f.1, BitVec.ofNat 32 f.2.length⟩ }

/-- R142: from reset, `CFG N` and the frames `(c_1, p_1) … (c_n, p_n)` with every `c_i < N` emit exactly
`[Write(c_1, p_1), …, Write(c_n, p_n)]` and leave `PHASE = 0`, `HCNT = 0` and `MODE = RUN`. -/
def Obligations.RoundTrip : Prop :=
  ∀ (n : BitVec 4) (frames : List (Byte × List Byte)), 1 ≤ n.toNat → n.toNat ≤ 8 →
    (∀ f ∈ frames, f.1.toNat < n.toNat ∧ f.2.length ≤ 2 ^ 32 - 1) →
    ∃ t,
      transactAll
        (txnWord 3#3 (n.zeroExtend 8) :: frames.flatMap fun f => (frameBytes f.1 f.2).map byteWord)
        State.reset = .next t ∧
      t.events = (frames.map fun f => Event.write (f.1.extractLsb' 0 3) f.2) ∧
      t.phase = .header ∧ t.hcnt = 0#3 ∧ t.mode = .run

/-- R141: inserting `NOP` words anywhere changes neither the state nor the events of a run. -/
def Obligations.NopsAreInvisible : Prop :=
  ∀ (ws : List TxnWord) (s : State),
    transactAll (ws.filter fun w => opField w != 0#3) s = transactAll ws s

/-- R55, R130 (b): the values of payload bytes decide nothing. Two states that differ only in the payload bytes held, given
two payload bytes, go to states that agree in every register but the buffer, whose lengths agree; the events they emit agree
but for the values in a `Write`'s chunk, and the beats on the port but for `dst_data`. -/
def Obligations.PayloadValuesDecideNothing : Prop :=
  ∀ (b b' : Byte) (q : List Byte) (s : State), s.mode = .run → s.phase = .payload → q.length = s.pbuf.length →
    ∃ t t' es es', exec (.byte b) s = .next t ∧ exec (.byte b') { s with pbuf := q } = .next t' ∧
      t.events = s.events ++ es ∧ t'.events = s.events ++ es' ∧ es'.map Event.shape = es.map Event.shape ∧
      t'.pbuf.length = t.pbuf.length ∧ t'.pending.map Beat.shape = t.pending.map Beat.shape ∧
      t' = { t with pbuf := t'.pbuf, pending := t'.pending, events := t'.events }

/-! ### `EOS` -/

/-- R180–R182: `EOS`, the word `0x200`, in `RUN` tells every bound destination in one event and no other, discards a partial
frame without an event, and ends the instance; nothing else changes. In another mode it only sets `ILL`. -/
def Obligations.EosTellsEveryBoundDestination : Prop :=
  ∀ s : State,
    (s.mode = .run →
      ∃ m : Byte, (∀ c < 8, m.getLsbD c = decide (c < s.ndest.toNat)) ∧
        exec .eos s =
          .next { s with
            mode := .ended, phase := .header, hcnt := 0#3, hbuf := 0#32, chan := 0#8, len := 0#32, rem := 0#32
            pbuf := [], events := s.events ++ [.endTo m], endOut := some m }) ∧
    (s.mode ≠ .run → exec .eos s = .next { s with ill := true }) ∧
    transact 0x200#11 s = exec .eos s

/-- R183: `End` is sent exactly once per instance. In a run without `SRST`, from a state before the end, a destination has
been told once more exactly if the instance has ended and binds it. -/
def Obligations.EndIsSentOncePerInstance : Prop :=
  ∀ (ws : List TxnWord) (s t : State), s.mode ≠ .ended → (∀ w ∈ ws, decodeWord w ≠ .srst) →
    transactAll ws s = .next t → ∀ c < 8,
      timesTold c t.events = timesTold c s.events + if t.mode = .ended ∧ c < t.ndest.toNat then 1 else 0

/-- R184: an ended instance stays ended, with no event, whatever words come, as long as none is `SRST`; only `ILL` can
change, and every word but a `NOP` sets it. `SRST` and the reset pin return the block to `UNCONF`. -/
def Obligations.EndedLastsUntilReset : Prop :=
  ∀ s : State, s.mode = .ended →
    (∀ ws : List TxnWord, (∀ w ∈ ws, decodeWord w ≠ .srst) →
      transactAll ws s = .next { s with ill := s.ill || ws.any fun w => opField w != 0b000#3 }) ∧
    (∃ t, exec .srst s = .next t ∧ t.mode = .unconf) ∧
    (s.pins.rstN = false → ∃ t, step s = .next t ∧ t.mode = .unconf)

/-! ### Whole-machine rules -/

/-- R10: `Step` is total. In every state every instruction answers a next state: no fault and no refusal is ever met by a
conforming block. For the frame header, and in states that break R32, what the next state holds is the model's choice (log
entries 5, 6, 7). -/
def Obligations.EveryInstructionAnswersANextState : Prop :=
  (∀ (i : Instr) (s : State), ∃ t, exec i s = .next t) ∧ ∀ s : State, ∃ t, step s = .next t

/-- R207: a transaction emits at most one event, and the events before it stand: a stream byte one `Write` or one `Err`, an
`EOS` one `End`, a `CFG` one `Err`, any other transaction none. A transaction that sets `ILL` emits none. R207 speaks of
transactions and has no word for the frame header: that it may emit what `BYTE` may is the model's choice (log entry 5). -/
def Obligations.AtMostOneEventPerTransaction : Prop :=
  ∀ (i : Instr) (s t : State), exec i s = .next t →
    (t.events = s.events ∨
      match i with
      | .nop _ | .srst | .reservedOp5 _ | .reservedOp6 _ | .reservedOp7 _ | .illegalOther _ => False
      | .byte _ | .frameHeader _ _ =>
        (∃ c p, t.events = s.events ++ [.write c p]) ∨ ∃ e, t.events = s.events ++ [.err e]
      | .eos => ∃ m, t.events = s.events ++ [.endTo m]
      | .cfg _ => ∃ e, t.events = s.events ++ [.err e]) ∧
    (s.ill = false → t.ill = true → t.events = s.events)

/-- R39: which fields an instruction may write. The fields without a mark in its row are unchanged, and no instruction
changes the pins to come, the record of the ports, or `in_ready`'s flag. R39 has no row for the frame header: that it may
write what `BYTE` may is the model's choice (log entry 5). -/
def Obligations.WriteMatrix : Prop :=
  ∀ (i : Instr) (s t : State), exec i s = .next t →
    (match i with
      | .cfg _ | .eos | .srst => True
      | _ => t.mode = s.mode) ∧
    (match i with
      | .cfg _ | .srst => True
      | _ => t.ndest = s.ndest ∧ t.cfgerr = s.cfgerr) ∧
    (match i with
      | .byte _ | .eos | .srst | .frameHeader _ _ => True
      | _ => t.phase = s.phase ∧ t.hcnt = s.hcnt ∧ t.hbuf = s.hbuf ∧ t.chan = s.chan ∧ t.len = s.len ∧
          t.rem = s.rem ∧ t.pbuf = s.pbuf) ∧
    (match i with
      | .nop _ => t.ill = s.ill
      | _ => True) ∧
    t.inputs = s.inputs ∧ t.portLog = s.portLog ∧ t.rstHigh = s.rstHigh

/-- R30: `ILL` is sticky. No instruction but `SRST` clears it, and no edge but a reset edge or one that accepts an `SRST`:
an `SRST` that only stands on the pins clears nothing. -/
def Obligations.IllIsSticky : Prop :=
  (∀ (i : Instr) (s t : State), i ≠ .srst → exec i s = .next t → s.ill = true → t.ill = true) ∧
  ∀ s t : State, s.pins.rstN = true → (s.accepts = true → decodeWord s.pins.inWord ≠ .srst) → step s = .next t →
    s.ill = true → t.ill = true

/-- R22: once an instance is constructed, no instruction but `SRST` changes its number of destinations or takes it back to
`UNCONF`. -/
def Obligations.BindingsAreFixedForTheInstance : Prop :=
  ∀ (i : Instr) (s t : State), i ≠ .srst → s.mode ≠ .unconf → exec i s = .next t →
    t.ndest = s.ndest ∧ t.mode ≠ .unconf

/-- R104: a block that was never successfully configured consumes no byte into its cursor and emits no `Write` and no `End`,
for any input. Of a run all of whose states are in `UNCONF` with an empty cursor at its start, the cursor is empty at the
end and each event is an `InvalidConfiguration` error. -/
def Obligations.UnconfiguredBlockDoesNoOutput : Prop :=
  ∀ (ws : List TxnWord) (s t : State), CursorEmpty s →
    (∀ k u, transactAll (ws.take k) s = .next u → u.mode = .unconf) → transactAll ws s = .next t →
      CursorEmpty t ∧
      ∃ es : List Event, t.events = s.events ++ es ∧ ∀ e ∈ es, ∃ n, e = .err ⟨1#2, n, 0#32⟩

/-- R33: each field of `STATUS` where the table puts it, and the reserved bits 0; the values the table says are never read
are not read in a state with (I1). -/
def Obligations.StatusLayout : Prop :=
  ∀ s : State,
    s.status.extractLsb' 0 2 = s.mode.bits ∧ s.status.extractLsb' 2 1 = s.phase.bits ∧
    s.status.extractLsb' 3 3 = s.hcnt ∧ s.status.extractLsb' 6 4 = s.ndest ∧
    s.status.extractLsb' 10 1 = BitVec.ofBool s.ill ∧ s.status.extractLsb' 11 1 = BitVec.ofBool s.cfgerr ∧
    s.status.extractLsb' 12 4 = 0#4 ∧
    s.status = (BitVec.ofBool s.cfgerr ++ BitVec.ofBool s.ill ++ s.ndest ++ s.hcnt ++ s.phase.bits ++
      s.mode.bits : BitVec 12).zeroExtend 16 ∧
    (LegalFields s → s.status.extractLsb' 0 2 ≠ 3#2 ∧ (s.status.extractLsb' 3 3).toNat ≤ 4 ∧
      (s.status.extractLsb' 6 4).toNat ≤ 8)

/-! ### Steps and ports -/

/-- R235, R78: at an edge that accepts a word, `step` is the meaning of the instruction the word decodes to, with the edge's
own work on the ports done before: the pin sample is used up and the strobes of the last cycle are sampled and fall. -/
def Obligations.StepRunsTheAcceptedWord : Prop :=
  ∀ s : State, s.pins.rstN = true → s.pins.inValid = true → s.inReady = true →
    step s =
      exec (decodeWord s.pins.inWord)
        { s with
          inputs := s.inputs.tail, rstHigh := true, errOut := none, endOut := none, gap := s.gap - 1
          portLog := s.portLog ++ (s.errOut.map PortSignal.errStrobe).toList ++
            (s.endOut.map PortSignal.endStrobe).toList }

/-- The host's fetch, the model's choice (log entries 2, 4): a word placed by `withFetchWord` is accepted and run by the very next step, and a header so placed is
completed by it. -/
def Obligations.FetchedInstructionRunsNext : Prop :=
  (∀ (w : TxnWord) (s : State), ∃ u, step (s.withFetchWord 16 w.toNat) = exec (decodeWord w) u ∧
    u = { s with
      inputs := s.inputs.tail, rstHigh := true, pending := [], gap := 0, errOut := none, endOut := none
      portLog := u.portLog }) ∧
  ∀ (h : HeaderWord) (s : State), ∃ u, step (s.withFetchWord 40 h.toNat) = exec (decodeHeader h) u ∧
    u.mode = .run ∧ u.phase = .header ∧ u.hcnt = 4#3 ∧ u.hbuf = h.extractLsb' 8 32

/-- R235, R216, R238: at an edge that accepts no word (none presented, a beat pending, or the cycle after a reset edge),
every field of R20 and the events stand; a presented word is not lost to the block's registers, whatever it is. -/
def Obligations.NoAcceptanceNoChange : Prop :=
  ∀ s : State, s.pins.rstN = true → (s.pins.inValid = false ∨ s.pending ≠ [] ∨ s.rstHigh = false) →
    ∃ log pend g d, step s =
      .next { s with
        inputs := s.inputs.tail, rstHigh := true, errOut := none, endOut := none, portLog := log, pending := pend
        gap := g, gapDraws := d }

/-- R236, R238: while a beat is pending the block accepts no word of any kind. When it is presented, an edge with
`dst_ready = 1` transfers exactly that beat, and one with `dst_ready = 0` holds it, presented. Between two beats there may be
cycles with no beat presented, in which nothing transfers; how many is free (R244, log entry 9), and the beat's fields are
shown as `none` then (log entry 10). -/
def Obligations.BeatIsHeldUntilReady : Prop :=
  ∀ (b : Beat) (rest : List Beat) (s : State), s.pending = b :: rest → s.errOut = none → s.endOut = none →
    s.pins.rstN = true →
    s.inReady = false ∧
    (s.gap = 0 → s.dstBeat = some b ∧
      (s.pins.dstReady = true →
        ∃ g d, (rest = [] → g = 0) ∧ step s = .next { s with
          inputs := s.inputs.tail, rstHigh := true, pending := rest, gap := g, gapDraws := d
          portLog := s.portLog ++ [.beat b] }) ∧
      (s.pins.dstReady = false → step s = .next { s with inputs := s.inputs.tail, rstHigh := true })) ∧
    (s.gap ≠ 0 → s.dstBeat = none ∧
      step s = .next { s with inputs := s.inputs.tail, rstHigh := true, gap := s.gap - 1 })

/-- R236: the beats of a chunk: one a byte, in order, all to the chunk's destination, none empty, the last one alone marked
last; the empty chunk is one empty beat, marked last. -/
def Obligations.BeatsOfAChunk : Prop :=
  (∀ c : BitVec 3, beatsOf c [] = [⟨c, 0#8, true, true⟩]) ∧
  ∀ (c : BitVec 3) (p : List Byte), p ≠ [] →
    (beatsOf c p).length = p.length ∧
    ∀ (i : Nat) (x : Byte), p[i]? = some x →
      (beatsOf c p)[i]? = some ⟨c, x, decide (i + 1 = p.length), false⟩

/-- R236, R235: a drain ends. Whatever else the host drives, after some number of edges with `dst_ready = 1` and `rst_n = 1`,
no smaller than the number of pending beats, all of them have transferred, in order, nothing else has changed, and the block
is ready for a word, which it was not at any edge before. No more is said of that number (R244, log entry 9). -/
def Obligations.DrainEndsWhenReady : Prop :=
  ∀ s : State, s.pending ≠ [] → s.errOut = none → s.endOut = none →
    ∃ n d, s.pending.length ≤ n ∧
      ∀ ins : List Pins, n ≤ ins.length → (∀ p ∈ ins.take n, p.rstN = true ∧ p.dstReady = true) →
        (∀ m < n, ∃ u, edges m { s with inputs := ins } = .next u ∧ u.inReady = false) ∧
        ∃ t, edges n { s with inputs := ins } = .next t ∧ t.inReady = true ∧
          t = { s with
            inputs := ins.drop n, rstHigh := true, pending := [], gap := 0, gapDraws := d
            portLog := s.portLog ++ s.pending.map PortSignal.beat }

/-- R235, R238, R242 (a): a word the host holds on the pins through a drain is accepted at the first edge after it and at none
before, once, and runs on the registers as the drain left them. How many edges the drain takes is left open (R244, log
entry 9). -/
def Obligations.HeldWordIsAcceptedAfterTheDrain : Prop :=
  ∀ s : State, s.pending ≠ [] → s.errOut = none → s.endOut = none →
    ∃ n d, s.pending.length ≤ n ∧
      ∀ (w : TxnWord) (rest ins : List Pins), ins = List.replicate (n + 1) ⟨true, true, w, true⟩ ++ rest →
        (∀ m < n, ∃ u, edges m { s with inputs := ins } = .next u ∧ u.accepts = false) ∧
        ∃ t, edges n { s with inputs := ins } = .next t ∧ t.accepts = true ∧ SameTransactionState t s ∧
          step t =
            exec (decodeWord w) { s with
              inputs := rest, rstHigh := true, pending := [], gap := 0, gapDraws := d
              portLog := s.portLog ++ s.pending.map PortSignal.beat }

/-- R237: a strobe is high for exactly one cycle. At any edge the strobes of the cycle that ends are sampled, once, and no
other strobe is; they fall unless the word accepted at this edge raises one anew. That a reset edge samples them too, and
the record itself, are the model's (log entry 3). -/
def Obligations.StrobesLastOneCycle : Prop :=
  ∀ s t : State, step s = .next t →
    (∃ more, t.portLog = s.portLog ++ (s.errOut.map PortSignal.errStrobe).toList ++
        (s.endOut.map PortSignal.endStrobe).toList ++ more ∧
      ∀ x ∈ more, (∃ b, x = .beat b) ∨ x = .resetEdge) ∧
    (t.errOut ≠ none → ∃ e, t.errOut = some e ∧ t.events = s.events ++ [.err e]) ∧
    (t.endOut ≠ none → ∃ m, t.endOut = some m ∧ t.events = s.events ++ [.endTo m])

/-- R238, U4: while a chunk drains, a destination side that never raises `dst_ready` stalls the block for ever: whatever
the host presents, after any number of edges without a reset the same beat is pending and no word has been accepted. Past the end of `inputs` this rests on the model's
idle pins, `rst_n = 1` and `dst_ready = 0` (log entry 1). -/
def Obligations.DestinationNeverReadyStallsTheBlock : Prop :=
  ∀ (k : Nat) (s : State), s.pending ≠ [] → (∀ p ∈ s.inputs, p.rstN = true ∧ p.dstReady = false) →
    ∃ t, edges k s = .next t ∧ SameTransactionState t s ∧ t.pending = s.pending ∧ t.inReady = false

/-- R57, R235, R10: the ports carry out the transaction-level `Step`. After any number of edges without a reset, the
registers and the events are those of a run of `Step` over some of the words presented, in the order presented, none
twice. Past the end of `inputs` this rests on the model's idle pins, `rst_n = 1` and `in_valid = 0` (log entry 1). -/
def Obligations.PortRunsAreTransactionRuns : Prop :=
  ∀ (k : Nat) (s t : State), (∀ p ∈ s.inputs, p.rstN = true) → edges k s = .next t →
    ∃ ws u, ws.Sublist ((s.inputs.filter fun p => p.inValid).map fun p => p.inWord) ∧
      transactAll ws s = .next u ∧ SameTransactionState t u

/-! ### Invariants every step keeps -/

/-- R32: (I1) to (I5) are kept by every instruction and by every edge, so they hold in every state that the reset state
reaches by words or by edges. -/
def Obligations.StepKeepsTheArchitecturalInvariants : Prop :=
  (∀ (i : Instr) (s t : State), ArchInv s → exec i s = .next t → ArchInv t) ∧
  (∀ s t : State, ArchInv s → step s = .next t → ArchInv t) ∧
  ∀ (ws : List TxnWord) (t : State), transactAll ws State.reset = .next t → ArchInv t

/-- R20, R29, R61: every edge keeps the payload buffer within its capacity, given (I1) to (I5). -/
def Obligations.StepKeepsTheBufferBound : Prop :=
  ∀ s t : State, ArchInv s → step s = .next t → Memory.wf t.pbuf = true

/-- R231, R236, R237, R181: the port invariants are kept by every edge: drains only in `RUN` and to bound destinations, no
two strobes at once, no strobe beside a drain, an end strobe that tells exactly the bound destinations. -/
def Obligations.StepKeepsThePortInvariants : Prop :=
  ∀ s t : State, PortInv s → step s = .next t → PortInv t

/-- R136, R143, R236, R239: every edge keeps this: a chunk that a destination takes as delivered is one whole `Write`
event, to that destination, none twice and in the order of the events; what it holds of an open chunk is the start of
the last `Write`. What transfers at a reset edge is the model's reading (log entry 3). -/
def Obligations.StepKeepsTheDeliveries : Prop :=
  ∀ s t : State, DeliveryInv s → step s = .next t → DeliveryInv t

/-! ### Readable ports -/

/-- R34: the debug ports show the pending header, in every state, and read 0 after reset. -/
def Obligations.DebugPortsShowThePendingHeader : Prop :=
  (∀ s : State, s.dbgChan = s.chan ∧ s.dbgLen = s.len ∧ s.dbgRem = s.rem) ∧
  State.reset.dbgChan = 0#8 ∧ State.reset.dbgLen = 0#32 ∧ State.reset.dbgRem = 0#32

/-- R234, R235, R237, R241: in every cycle, a drain's cycles too, the output ports show `STATUS` and the debug values of the
registers, the handshake and the strobes. They show the first pending beat, if there is one, but for the cycles in which it is
still awaited: that a drain may have such cycles is the model's choice (log entry 9), and that fields without meaning are
shown as `none`, there and wherever a valid signal is 0, is the model's reading (log entry 10). A word that leaves a chunk to drain leaves `PHASE = 0` and the debug ports at 0, and
an edge that accepts no word changes neither `status` nor a debug port. -/
def Obligations.OutputsShowTheStateAfterTheLastWord : Prop :=
  (∀ s : State,
    s.outputs.status = s.status ∧ s.outputs.dbgChan = s.chan ∧ s.outputs.dbgLen = s.len ∧ s.outputs.dbgRem = s.rem ∧
    s.outputs.inReady = (s.rstHigh && s.pending.isEmpty) ∧ s.outputs.dst = (if s.gap = 0 then s.pending.head? else none) ∧
    s.outputs.err = s.errOut ∧ s.outputs.dstEnd = s.endOut) ∧
  (∀ (i : Instr) (s t : State), s.pending = [] → exec i s = .next t → t.pending ≠ [] →
    t.outputs.status.extractLsb' 2 1 = 0#1 ∧ t.outputs.dbgChan = 0#8 ∧ t.outputs.dbgLen = 0#32 ∧
      t.outputs.dbgRem = 0#32) ∧
  ∀ s t : State, s.pins.rstN = true → s.accepts = false → step s = .next t →
    t.outputs.status = s.outputs.status ∧ t.outputs.dbgChan = s.outputs.dbgChan ∧
      t.outputs.dbgLen = s.outputs.dbgLen ∧ t.outputs.dbgRem = s.outputs.dbgRem
end

