-- ==== Sys2Proof/Laws/Decode.lean ====
section
/-! SUPPORT. The fields of a word written from its fields, and what each encoding decodes to. -/

namespace Sys2Proof

/-! ### Fields -/

@[simp] theorem opField_txnWord (op : BitVec 3) (a : Byte) : opField (txnWord op a) = op :=
  BitVec.extractLsb'_append_eq_left

@[simp] theorem argField_txnWord (op : BitVec 3) (a : Byte) : argField (txnWord op a) = a :=
  BitVec.extractLsb'_append_eq_right

@[simp] theorem argHigh_txnWord (op : BitVec 3) (a : Byte) : argHigh (txnWord op a) = a.extractLsb' 4 4 :=
  BitVec.extractLsb'_append_eq_of_add_le (by decide)

@[simp] theorem argLow_txnWord (op : BitVec 3) (a : Byte) : argLow (txnWord op a) = a.extractLsb' 0 4 :=
  BitVec.extractLsb'_append_eq_of_add_le (by decide)

/-- A word is its two fields (R74). -/
theorem txnWord_fields (w : TxnWord) : txnWord (opField w) (argField w) = w :=
  BitVec.extractLsb'_append_extractLsb' (w := 3) (len := 8) (x := w)

/-- `ARG` is its two halves (R75). -/
theorem argField_halves (w : TxnWord) : argHigh w ++ argLow w = argField w :=
  BitVec.extractLsb'_append_extractLsb'_eq_extractLsb' (by decide)

/-! ### Words -/

theorem decodeWord_nop (a : Byte) : decodeWord (txnWord 0#3 a) = .nop a := by simp [decodeWord]

theorem decodeWord_byte (b : Byte) : decodeWord (txnWord 1#3 b) = .byte b := by simp [decodeWord]

theorem decodeWord_eos : decodeWord (txnWord 2#3 0#8) = .eos := by simp [decodeWord]

theorem decodeWord_cfg (n : BitVec 4) : decodeWord (txnWord 3#3 (0#4 ++ n)) = .cfg n := by
  revert n; decide

theorem decodeWord_srst : decodeWord (txnWord 4#3 0#8) = .srst := by simp [decodeWord]

theorem decodeWord_reservedOp5 (a : Byte) : decodeWord (txnWord 5#3 a) = .reservedOp5 a := by simp [decodeWord]

theorem decodeWord_reservedOp6 (a : Byte) : decodeWord (txnWord 6#3 a) = .reservedOp6 a := by simp [decodeWord]

theorem decodeWord_reservedOp7 (a : Byte) : decodeWord (txnWord 7#3 a) = .reservedOp7 a := by simp [decodeWord]

/-- The words of the default row decode to it (R77 (b)–(d)). -/
theorem decodeWord_illegalOther (w : TxnWord) (h : isIllegalOther w = true) : decodeWord w = .illegalOther w := by
  simp only [isIllegalOther, Bool.or_eq_true, Bool.and_eq_true, beq_iff_eq, bne_iff_ne] at h
  rcases h with (⟨ho, ha⟩ | ⟨ho, ha⟩) | ⟨ho, ha⟩ <;>
    simp [decodeWord, opField, ho, argField, argHigh, ha]

/-! ### Headers -/

@[simp] theorem headerChannel_append (c : Byte) (l : Len) : headerChannel (c ++ l) = c :=
  BitVec.extractLsb'_append_eq_left

@[simp] theorem headerLength_append (c : Byte) (l : Len) : headerLength (c ++ l) = l :=
  BitVec.extractLsb'_append_eq_right

/-- A header is its two fields (R71). -/
theorem header_fields (h : HeaderWord) : headerChannel h ++ headerLength h = h :=
  BitVec.extractLsb'_append_extractLsb' (w := 8) (len := 32) (x := h)

end Sys2Proof
end

