-- ==== Sys2Proof/Laws/State.lean ====
section
/-! SUPPORT. What each record update of `Machine/Flags.lean` and `Machine/Ops.lean` does to each field of `State`: one
lemma a field and update, so that no later proof unfolds an update. -/

namespace Sys2Proof.Machine

variable (s : State)

/-! `State.setIll` -/

@[simp] theorem State.setIll_mode : (s.setIll).mode = s.mode := rfl
@[simp] theorem State.setIll_ndest : (s.setIll).ndest = s.ndest := rfl
@[simp] theorem State.setIll_phase : (s.setIll).phase = s.phase := rfl
@[simp] theorem State.setIll_hcnt : (s.setIll).hcnt = s.hcnt := rfl
@[simp] theorem State.setIll_hbuf : (s.setIll).hbuf = s.hbuf := rfl
@[simp] theorem State.setIll_chan : (s.setIll).chan = s.chan := rfl
@[simp] theorem State.setIll_len : (s.setIll).len = s.len := rfl
@[simp] theorem State.setIll_rem : (s.setIll).rem = s.rem := rfl
@[simp] theorem State.setIll_pbuf : (s.setIll).pbuf = s.pbuf := rfl
@[simp] theorem State.setIll_ill : (s.setIll).ill = true := rfl
@[simp] theorem State.setIll_cfgerr : (s.setIll).cfgerr = s.cfgerr := rfl
@[simp] theorem State.setIll_rstHigh : (s.setIll).rstHigh = s.rstHigh := rfl
@[simp] theorem State.setIll_pending : (s.setIll).pending = s.pending := rfl
@[simp] theorem State.setIll_errOut : (s.setIll).errOut = s.errOut := rfl
@[simp] theorem State.setIll_endOut : (s.setIll).endOut = s.endOut := rfl
@[simp] theorem State.setIll_inputs : (s.setIll).inputs = s.inputs := rfl
@[simp] theorem State.setIll_events : (s.setIll).events = s.events := rfl
@[simp] theorem State.setIll_portLog : (s.setIll).portLog = s.portLog := rfl
@[simp] theorem State.setIll_draws : (s.setIll).draws = s.draws := rfl
@[simp] theorem State.setIll_gap : (s.setIll).gap = s.gap := rfl
@[simp] theorem State.setIll_gapDraws : (s.setIll).gapDraws = s.gapDraws := rfl

/-! `State.setCfgerr` -/

@[simp] theorem State.setCfgerr_mode (v : Bool) : (s.setCfgerr v).mode = s.mode := rfl
@[simp] theorem State.setCfgerr_ndest (v : Bool) : (s.setCfgerr v).ndest = s.ndest := rfl
@[simp] theorem State.setCfgerr_phase (v : Bool) : (s.setCfgerr v).phase = s.phase := rfl
@[simp] theorem State.setCfgerr_hcnt (v : Bool) : (s.setCfgerr v).hcnt = s.hcnt := rfl
@[simp] theorem State.setCfgerr_hbuf (v : Bool) : (s.setCfgerr v).hbuf = s.hbuf := rfl
@[simp] theorem State.setCfgerr_chan (v : Bool) : (s.setCfgerr v).chan = s.chan := rfl
@[simp] theorem State.setCfgerr_len (v : Bool) : (s.setCfgerr v).len = s.len := rfl
@[simp] theorem State.setCfgerr_rem (v : Bool) : (s.setCfgerr v).rem = s.rem := rfl
@[simp] theorem State.setCfgerr_pbuf (v : Bool) : (s.setCfgerr v).pbuf = s.pbuf := rfl
@[simp] theorem State.setCfgerr_ill (v : Bool) : (s.setCfgerr v).ill = s.ill := rfl
@[simp] theorem State.setCfgerr_cfgerr (v : Bool) : (s.setCfgerr v).cfgerr = v := rfl
@[simp] theorem State.setCfgerr_rstHigh (v : Bool) : (s.setCfgerr v).rstHigh = s.rstHigh := rfl
@[simp] theorem State.setCfgerr_pending (v : Bool) : (s.setCfgerr v).pending = s.pending := rfl
@[simp] theorem State.setCfgerr_errOut (v : Bool) : (s.setCfgerr v).errOut = s.errOut := rfl
@[simp] theorem State.setCfgerr_endOut (v : Bool) : (s.setCfgerr v).endOut = s.endOut := rfl
@[simp] theorem State.setCfgerr_inputs (v : Bool) : (s.setCfgerr v).inputs = s.inputs := rfl
@[simp] theorem State.setCfgerr_events (v : Bool) : (s.setCfgerr v).events = s.events := rfl
@[simp] theorem State.setCfgerr_portLog (v : Bool) : (s.setCfgerr v).portLog = s.portLog := rfl
@[simp] theorem State.setCfgerr_draws (v : Bool) : (s.setCfgerr v).draws = s.draws := rfl
@[simp] theorem State.setCfgerr_gap (v : Bool) : (s.setCfgerr v).gap = s.gap := rfl
@[simp] theorem State.setCfgerr_gapDraws (v : Bool) : (s.setCfgerr v).gapDraws = s.gapDraws := rfl

/-! `State.clearCursor` -/

@[simp] theorem State.clearCursor_mode : (s.clearCursor).mode = s.mode := rfl
@[simp] theorem State.clearCursor_ndest : (s.clearCursor).ndest = s.ndest := rfl
@[simp] theorem State.clearCursor_phase : (s.clearCursor).phase = .header := rfl
@[simp] theorem State.clearCursor_hcnt : (s.clearCursor).hcnt = s.hcnt := rfl
@[simp] theorem State.clearCursor_hbuf : (s.clearCursor).hbuf = s.hbuf := rfl
@[simp] theorem State.clearCursor_chan : (s.clearCursor).chan = 0#8 := rfl
@[simp] theorem State.clearCursor_len : (s.clearCursor).len = 0#32 := rfl
@[simp] theorem State.clearCursor_rem : (s.clearCursor).rem = 0#32 := rfl
@[simp] theorem State.clearCursor_pbuf : (s.clearCursor).pbuf = [] := rfl
@[simp] theorem State.clearCursor_ill : (s.clearCursor).ill = s.ill := rfl
@[simp] theorem State.clearCursor_cfgerr : (s.clearCursor).cfgerr = s.cfgerr := rfl
@[simp] theorem State.clearCursor_rstHigh : (s.clearCursor).rstHigh = s.rstHigh := rfl
@[simp] theorem State.clearCursor_pending : (s.clearCursor).pending = s.pending := rfl
@[simp] theorem State.clearCursor_errOut : (s.clearCursor).errOut = s.errOut := rfl
@[simp] theorem State.clearCursor_endOut : (s.clearCursor).endOut = s.endOut := rfl
@[simp] theorem State.clearCursor_inputs : (s.clearCursor).inputs = s.inputs := rfl
@[simp] theorem State.clearCursor_events : (s.clearCursor).events = s.events := rfl
@[simp] theorem State.clearCursor_portLog : (s.clearCursor).portLog = s.portLog := rfl
@[simp] theorem State.clearCursor_draws : (s.clearCursor).draws = s.draws := rfl
@[simp] theorem State.clearCursor_gap : (s.clearCursor).gap = s.gap := rfl
@[simp] theorem State.clearCursor_gapDraws : (s.clearCursor).gapDraws = s.gapDraws := rfl

/-! `State.discardPartial` -/

@[simp] theorem State.discardPartial_mode : (s.discardPartial).mode = s.mode := rfl
@[simp] theorem State.discardPartial_ndest : (s.discardPartial).ndest = s.ndest := rfl
@[simp] theorem State.discardPartial_phase : (s.discardPartial).phase = .header := rfl
@[simp] theorem State.discardPartial_hcnt : (s.discardPartial).hcnt = 0#3 := rfl
@[simp] theorem State.discardPartial_hbuf : (s.discardPartial).hbuf = 0#32 := rfl
@[simp] theorem State.discardPartial_chan : (s.discardPartial).chan = 0#8 := rfl
@[simp] theorem State.discardPartial_len : (s.discardPartial).len = 0#32 := rfl
@[simp] theorem State.discardPartial_rem : (s.discardPartial).rem = 0#32 := rfl
@[simp] theorem State.discardPartial_pbuf : (s.discardPartial).pbuf = [] := rfl
@[simp] theorem State.discardPartial_ill : (s.discardPartial).ill = s.ill := rfl
@[simp] theorem State.discardPartial_cfgerr : (s.discardPartial).cfgerr = s.cfgerr := rfl
@[simp] theorem State.discardPartial_rstHigh : (s.discardPartial).rstHigh = s.rstHigh := rfl
@[simp] theorem State.discardPartial_pending : (s.discardPartial).pending = s.pending := rfl
@[simp] theorem State.discardPartial_errOut : (s.discardPartial).errOut = s.errOut := rfl
@[simp] theorem State.discardPartial_endOut : (s.discardPartial).endOut = s.endOut := rfl
@[simp] theorem State.discardPartial_inputs : (s.discardPartial).inputs = s.inputs := rfl
@[simp] theorem State.discardPartial_events : (s.discardPartial).events = s.events := rfl
@[simp] theorem State.discardPartial_portLog : (s.discardPartial).portLog = s.portLog := rfl
@[simp] theorem State.discardPartial_draws : (s.discardPartial).draws = s.draws := rfl
@[simp] theorem State.discardPartial_gap : (s.discardPartial).gap = s.gap := rfl
@[simp] theorem State.discardPartial_gapDraws : (s.discardPartial).gapDraws = s.gapDraws := rfl

/-! `State.resetRegisters` -/

@[simp] theorem State.resetRegisters_mode : (s.resetRegisters).mode = .unconf := rfl
@[simp] theorem State.resetRegisters_ndest : (s.resetRegisters).ndest = 0#4 := rfl
@[simp] theorem State.resetRegisters_phase : (s.resetRegisters).phase = .header := rfl
@[simp] theorem State.resetRegisters_hcnt : (s.resetRegisters).hcnt = 0#3 := rfl
@[simp] theorem State.resetRegisters_hbuf : (s.resetRegisters).hbuf = 0#32 := rfl
@[simp] theorem State.resetRegisters_chan : (s.resetRegisters).chan = 0#8 := rfl
@[simp] theorem State.resetRegisters_len : (s.resetRegisters).len = 0#32 := rfl
@[simp] theorem State.resetRegisters_rem : (s.resetRegisters).rem = 0#32 := rfl
@[simp] theorem State.resetRegisters_pbuf : (s.resetRegisters).pbuf = [] := rfl
@[simp] theorem State.resetRegisters_ill : (s.resetRegisters).ill = false := rfl
@[simp] theorem State.resetRegisters_cfgerr : (s.resetRegisters).cfgerr = false := rfl
@[simp] theorem State.resetRegisters_rstHigh : (s.resetRegisters).rstHigh = s.rstHigh := rfl
@[simp] theorem State.resetRegisters_pending : (s.resetRegisters).pending = s.pending := rfl
@[simp] theorem State.resetRegisters_errOut : (s.resetRegisters).errOut = s.errOut := rfl
@[simp] theorem State.resetRegisters_endOut : (s.resetRegisters).endOut = s.endOut := rfl
@[simp] theorem State.resetRegisters_inputs : (s.resetRegisters).inputs = s.inputs := rfl
@[simp] theorem State.resetRegisters_events : (s.resetRegisters).events = s.events := rfl
@[simp] theorem State.resetRegisters_portLog : (s.resetRegisters).portLog = s.portLog := rfl
@[simp] theorem State.resetRegisters_draws : (s.resetRegisters).draws = s.draws := rfl
@[simp] theorem State.resetRegisters_gap : (s.resetRegisters).gap = s.gap := rfl
@[simp] theorem State.resetRegisters_gapDraws : (s.resetRegisters).gapDraws = s.gapDraws := rfl

/-! `State.holdHeaderByte` -/

@[simp] theorem State.holdHeaderByte_mode (b : Byte) : (s.holdHeaderByte b).mode = s.mode := rfl
@[simp] theorem State.holdHeaderByte_ndest (b : Byte) : (s.holdHeaderByte b).ndest = s.ndest := rfl
@[simp] theorem State.holdHeaderByte_phase (b : Byte) : (s.holdHeaderByte b).phase = s.phase := rfl
@[simp] theorem State.holdHeaderByte_hcnt (b : Byte) : (s.holdHeaderByte b).hcnt = s.hcnt + 1#3 := rfl
@[simp] theorem State.holdHeaderByte_hbuf (b : Byte) : (s.holdHeaderByte b).hbuf = setHbufByte s.hcnt.toNat b s.hbuf := rfl
@[simp] theorem State.holdHeaderByte_chan (b : Byte) : (s.holdHeaderByte b).chan = s.chan := rfl
@[simp] theorem State.holdHeaderByte_len (b : Byte) : (s.holdHeaderByte b).len = s.len := rfl
@[simp] theorem State.holdHeaderByte_rem (b : Byte) : (s.holdHeaderByte b).rem = s.rem := rfl
@[simp] theorem State.holdHeaderByte_pbuf (b : Byte) : (s.holdHeaderByte b).pbuf = s.pbuf := rfl
@[simp] theorem State.holdHeaderByte_ill (b : Byte) : (s.holdHeaderByte b).ill = s.ill := rfl
@[simp] theorem State.holdHeaderByte_cfgerr (b : Byte) : (s.holdHeaderByte b).cfgerr = s.cfgerr := rfl
@[simp] theorem State.holdHeaderByte_rstHigh (b : Byte) : (s.holdHeaderByte b).rstHigh = s.rstHigh := rfl
@[simp] theorem State.holdHeaderByte_pending (b : Byte) : (s.holdHeaderByte b).pending = s.pending := rfl
@[simp] theorem State.holdHeaderByte_errOut (b : Byte) : (s.holdHeaderByte b).errOut = s.errOut := rfl
@[simp] theorem State.holdHeaderByte_endOut (b : Byte) : (s.holdHeaderByte b).endOut = s.endOut := rfl
@[simp] theorem State.holdHeaderByte_inputs (b : Byte) : (s.holdHeaderByte b).inputs = s.inputs := rfl
@[simp] theorem State.holdHeaderByte_events (b : Byte) : (s.holdHeaderByte b).events = s.events := rfl
@[simp] theorem State.holdHeaderByte_portLog (b : Byte) : (s.holdHeaderByte b).portLog = s.portLog := rfl
@[simp] theorem State.holdHeaderByte_draws (b : Byte) : (s.holdHeaderByte b).draws = s.draws := rfl
@[simp] theorem State.holdHeaderByte_gap (b : Byte) : (s.holdHeaderByte b).gap = s.gap := rfl
@[simp] theorem State.holdHeaderByte_gapDraws (b : Byte) : (s.holdHeaderByte b).gapDraws = s.gapDraws := rfl

/-! `State.storeHeader` -/

@[simp] theorem State.storeHeader_mode (c : Byte) (l : Len) : (s.storeHeader c l).mode = s.mode := rfl
@[simp] theorem State.storeHeader_ndest (c : Byte) (l : Len) : (s.storeHeader c l).ndest = s.ndest := rfl
@[simp] theorem State.storeHeader_phase (c : Byte) (l : Len) : (s.storeHeader c l).phase = .payload := rfl
@[simp] theorem State.storeHeader_hcnt (c : Byte) (l : Len) : (s.storeHeader c l).hcnt = 0#3 := rfl
@[simp] theorem State.storeHeader_hbuf (c : Byte) (l : Len) : (s.storeHeader c l).hbuf = 0#32 := rfl
@[simp] theorem State.storeHeader_chan (c : Byte) (l : Len) : (s.storeHeader c l).chan = c := rfl
@[simp] theorem State.storeHeader_len (c : Byte) (l : Len) : (s.storeHeader c l).len = l := rfl
@[simp] theorem State.storeHeader_rem (c : Byte) (l : Len) : (s.storeHeader c l).rem = l := rfl
@[simp] theorem State.storeHeader_pbuf (c : Byte) (l : Len) : (s.storeHeader c l).pbuf = s.pbuf := rfl
@[simp] theorem State.storeHeader_ill (c : Byte) (l : Len) : (s.storeHeader c l).ill = s.ill := rfl
@[simp] theorem State.storeHeader_cfgerr (c : Byte) (l : Len) : (s.storeHeader c l).cfgerr = s.cfgerr := rfl
@[simp] theorem State.storeHeader_rstHigh (c : Byte) (l : Len) : (s.storeHeader c l).rstHigh = s.rstHigh := rfl
@[simp] theorem State.storeHeader_pending (c : Byte) (l : Len) : (s.storeHeader c l).pending = s.pending := rfl
@[simp] theorem State.storeHeader_errOut (c : Byte) (l : Len) : (s.storeHeader c l).errOut = s.errOut := rfl
@[simp] theorem State.storeHeader_endOut (c : Byte) (l : Len) : (s.storeHeader c l).endOut = s.endOut := rfl
@[simp] theorem State.storeHeader_inputs (c : Byte) (l : Len) : (s.storeHeader c l).inputs = s.inputs := rfl
@[simp] theorem State.storeHeader_events (c : Byte) (l : Len) : (s.storeHeader c l).events = s.events := rfl
@[simp] theorem State.storeHeader_portLog (c : Byte) (l : Len) : (s.storeHeader c l).portLog = s.portLog := rfl
@[simp] theorem State.storeHeader_draws (c : Byte) (l : Len) : (s.storeHeader c l).draws = s.draws := rfl
@[simp] theorem State.storeHeader_gap (c : Byte) (l : Len) : (s.storeHeader c l).gap = s.gap := rfl
@[simp] theorem State.storeHeader_gapDraws (c : Byte) (l : Len) : (s.storeHeader c l).gapDraws = s.gapDraws := rfl

/-! `State.emit`, `State.afterRead` and `State.memWrite`, where the field does not depend on the case -/

@[simp] theorem State.emit_mode (e : Event) : (s.emit e).mode = s.mode := by cases e <;> rfl
@[simp] theorem State.emit_ndest (e : Event) : (s.emit e).ndest = s.ndest := by cases e <;> rfl
@[simp] theorem State.emit_phase (e : Event) : (s.emit e).phase = s.phase := by cases e <;> rfl
@[simp] theorem State.emit_hcnt (e : Event) : (s.emit e).hcnt = s.hcnt := by cases e <;> rfl
@[simp] theorem State.emit_hbuf (e : Event) : (s.emit e).hbuf = s.hbuf := by cases e <;> rfl
@[simp] theorem State.emit_chan (e : Event) : (s.emit e).chan = s.chan := by cases e <;> rfl
@[simp] theorem State.emit_len (e : Event) : (s.emit e).len = s.len := by cases e <;> rfl
@[simp] theorem State.emit_rem (e : Event) : (s.emit e).rem = s.rem := by cases e <;> rfl
@[simp] theorem State.emit_pbuf (e : Event) : (s.emit e).pbuf = s.pbuf := by cases e <;> rfl
@[simp] theorem State.emit_ill (e : Event) : (s.emit e).ill = s.ill := by cases e <;> rfl
@[simp] theorem State.emit_cfgerr (e : Event) : (s.emit e).cfgerr = s.cfgerr := by cases e <;> rfl
@[simp] theorem State.emit_rstHigh (e : Event) : (s.emit e).rstHigh = s.rstHigh := by cases e <;> rfl
@[simp] theorem State.emit_inputs (e : Event) : (s.emit e).inputs = s.inputs := by cases e <;> rfl
@[simp] theorem State.emit_portLog (e : Event) : (s.emit e).portLog = s.portLog := by cases e <;> rfl
@[simp] theorem State.emit_draws (e : Event) : (s.emit e).draws = s.draws := by cases e <;> rfl
@[simp] theorem State.emit_gapDraws (e : Event) : (s.emit e).gapDraws = s.gapDraws := by cases e <;> rfl
@[simp] theorem State.emit_gap_write (c : BitVec 3) (p : List Byte) : (s.emit (.write c p)).gap = 0 := rfl
@[simp] theorem State.emit_gap_err (e : ErrWord) : (s.emit (.err e)).gap = s.gap := rfl
@[simp] theorem State.emit_gap_endTo (m : Byte) : (s.emit (.endTo m)).gap = s.gap := rfl
@[simp] theorem State.emit_events (e : Event) : (s.emit e).events = s.events ++ [e] := by cases e <;> rfl

@[simp] theorem State.afterRead_mode (n : Nat) : (s.afterRead n).mode = s.mode := by
  unfold State.afterRead; split <;> rfl
@[simp] theorem State.afterRead_ndest (n : Nat) : (s.afterRead n).ndest = s.ndest := by
  unfold State.afterRead; split <;> rfl
@[simp] theorem State.afterRead_phase (n : Nat) : (s.afterRead n).phase = s.phase := by
  unfold State.afterRead; split <;> rfl
@[simp] theorem State.afterRead_hcnt (n : Nat) : (s.afterRead n).hcnt = s.hcnt := by
  unfold State.afterRead; split <;> rfl
@[simp] theorem State.afterRead_hbuf (n : Nat) : (s.afterRead n).hbuf = s.hbuf := by
  unfold State.afterRead; split <;> rfl
@[simp] theorem State.afterRead_chan (n : Nat) : (s.afterRead n).chan = s.chan := by
  unfold State.afterRead; split <;> rfl
@[simp] theorem State.afterRead_len (n : Nat) : (s.afterRead n).len = s.len := by
  unfold State.afterRead; split <;> rfl
@[simp] theorem State.afterRead_rem (n : Nat) : (s.afterRead n).rem = s.rem := by
  unfold State.afterRead; split <;> rfl
@[simp] theorem State.afterRead_pbuf (n : Nat) : (s.afterRead n).pbuf = s.pbuf := by
  unfold State.afterRead; split <;> rfl
@[simp] theorem State.afterRead_ill (n : Nat) : (s.afterRead n).ill = s.ill := by
  unfold State.afterRead; split <;> rfl
@[simp] theorem State.afterRead_cfgerr (n : Nat) : (s.afterRead n).cfgerr = s.cfgerr := by
  unfold State.afterRead; split <;> rfl
@[simp] theorem State.afterRead_rstHigh (n : Nat) : (s.afterRead n).rstHigh = s.rstHigh := by
  unfold State.afterRead; split <;> rfl
@[simp] theorem State.afterRead_pending (n : Nat) : (s.afterRead n).pending = s.pending := by
  unfold State.afterRead; split <;> rfl
@[simp] theorem State.afterRead_errOut (n : Nat) : (s.afterRead n).errOut = s.errOut := by
  unfold State.afterRead; split <;> rfl
@[simp] theorem State.afterRead_endOut (n : Nat) : (s.afterRead n).endOut = s.endOut := by
  unfold State.afterRead; split <;> rfl
@[simp] theorem State.afterRead_inputs (n : Nat) : (s.afterRead n).inputs = s.inputs := by
  unfold State.afterRead; split <;> rfl
@[simp] theorem State.afterRead_events (n : Nat) : (s.afterRead n).events = s.events := by
  unfold State.afterRead; split <;> rfl
@[simp] theorem State.afterRead_portLog (n : Nat) : (s.afterRead n).portLog = s.portLog := by
  unfold State.afterRead; split <;> rfl
@[simp] theorem State.afterRead_gap (n : Nat) : (s.afterRead n).gap = s.gap := by
  unfold State.afterRead; split <;> rfl
@[simp] theorem State.afterRead_gapDraws (n : Nat) : (s.afterRead n).gapDraws = s.gapDraws := by
  unfold State.afterRead; split <;> rfl

@[simp] theorem State.memWrite_mode (i : Nat) (b : Byte) : (s.memWrite i b).mode = s.mode := by
  unfold State.memWrite; split <;> rfl
@[simp] theorem State.memWrite_ndest (i : Nat) (b : Byte) : (s.memWrite i b).ndest = s.ndest := by
  unfold State.memWrite; split <;> rfl
@[simp] theorem State.memWrite_phase (i : Nat) (b : Byte) : (s.memWrite i b).phase = s.phase := by
  unfold State.memWrite; split <;> rfl
@[simp] theorem State.memWrite_hcnt (i : Nat) (b : Byte) : (s.memWrite i b).hcnt = s.hcnt := by
  unfold State.memWrite; split <;> rfl
@[simp] theorem State.memWrite_hbuf (i : Nat) (b : Byte) : (s.memWrite i b).hbuf = s.hbuf := by
  unfold State.memWrite; split <;> rfl
@[simp] theorem State.memWrite_chan (i : Nat) (b : Byte) : (s.memWrite i b).chan = s.chan := by
  unfold State.memWrite; split <;> rfl
@[simp] theorem State.memWrite_len (i : Nat) (b : Byte) : (s.memWrite i b).len = s.len := by
  unfold State.memWrite; split <;> rfl
@[simp] theorem State.memWrite_rem (i : Nat) (b : Byte) : (s.memWrite i b).rem = s.rem := by
  unfold State.memWrite; split <;> rfl
@[simp] theorem State.memWrite_ill (i : Nat) (b : Byte) : (s.memWrite i b).ill = s.ill := by
  unfold State.memWrite; split <;> rfl
@[simp] theorem State.memWrite_cfgerr (i : Nat) (b : Byte) : (s.memWrite i b).cfgerr = s.cfgerr := by
  unfold State.memWrite; split <;> rfl
@[simp] theorem State.memWrite_rstHigh (i : Nat) (b : Byte) : (s.memWrite i b).rstHigh = s.rstHigh := by
  unfold State.memWrite; split <;> rfl
@[simp] theorem State.memWrite_pending (i : Nat) (b : Byte) : (s.memWrite i b).pending = s.pending := by
  unfold State.memWrite; split <;> rfl
@[simp] theorem State.memWrite_errOut (i : Nat) (b : Byte) : (s.memWrite i b).errOut = s.errOut := by
  unfold State.memWrite; split <;> rfl
@[simp] theorem State.memWrite_endOut (i : Nat) (b : Byte) : (s.memWrite i b).endOut = s.endOut := by
  unfold State.memWrite; split <;> rfl
@[simp] theorem State.memWrite_inputs (i : Nat) (b : Byte) : (s.memWrite i b).inputs = s.inputs := by
  unfold State.memWrite; split <;> rfl
@[simp] theorem State.memWrite_events (i : Nat) (b : Byte) : (s.memWrite i b).events = s.events := by
  unfold State.memWrite; split <;> rfl
@[simp] theorem State.memWrite_portLog (i : Nat) (b : Byte) : (s.memWrite i b).portLog = s.portLog := by
  unfold State.memWrite; split <;> rfl
@[simp] theorem State.memWrite_gap (i : Nat) (b : Byte) : (s.memWrite i b).gap = s.gap := by
  unfold State.memWrite; split <;> rfl
@[simp] theorem State.memWrite_gapDraws (i : Nat) (b : Byte) : (s.memWrite i b).gapDraws = s.gapDraws := by
  unfold State.memWrite; split <;> rfl

@[simp] theorem State.holdPayloadByte_mode (b : Byte) : (s.holdPayloadByte b).mode = s.mode := s.memWrite_mode _ b
@[simp] theorem State.holdPayloadByte_ndest (b : Byte) : (s.holdPayloadByte b).ndest = s.ndest := s.memWrite_ndest _ b
@[simp] theorem State.holdPayloadByte_phase (b : Byte) : (s.holdPayloadByte b).phase = s.phase := s.memWrite_phase _ b
@[simp] theorem State.holdPayloadByte_hcnt (b : Byte) : (s.holdPayloadByte b).hcnt = s.hcnt := s.memWrite_hcnt _ b
@[simp] theorem State.holdPayloadByte_hbuf (b : Byte) : (s.holdPayloadByte b).hbuf = s.hbuf := s.memWrite_hbuf _ b
@[simp] theorem State.holdPayloadByte_chan (b : Byte) : (s.holdPayloadByte b).chan = s.chan := s.memWrite_chan _ b
@[simp] theorem State.holdPayloadByte_len (b : Byte) : (s.holdPayloadByte b).len = s.len := s.memWrite_len _ b
@[simp] theorem State.holdPayloadByte_rem (b : Byte) : (s.holdPayloadByte b).rem = s.rem - 1#32 := rfl
@[simp] theorem State.holdPayloadByte_ill (b : Byte) : (s.holdPayloadByte b).ill = s.ill := s.memWrite_ill _ b
@[simp] theorem State.holdPayloadByte_cfgerr (b : Byte) : (s.holdPayloadByte b).cfgerr = s.cfgerr := s.memWrite_cfgerr _ b
@[simp] theorem State.holdPayloadByte_rstHigh (b : Byte) : (s.holdPayloadByte b).rstHigh = s.rstHigh := s.memWrite_rstHigh _ b
@[simp] theorem State.holdPayloadByte_pending (b : Byte) : (s.holdPayloadByte b).pending = s.pending := s.memWrite_pending _ b
@[simp] theorem State.holdPayloadByte_errOut (b : Byte) : (s.holdPayloadByte b).errOut = s.errOut := s.memWrite_errOut _ b
@[simp] theorem State.holdPayloadByte_endOut (b : Byte) : (s.holdPayloadByte b).endOut = s.endOut := s.memWrite_endOut _ b
@[simp] theorem State.holdPayloadByte_inputs (b : Byte) : (s.holdPayloadByte b).inputs = s.inputs := s.memWrite_inputs _ b
@[simp] theorem State.holdPayloadByte_events (b : Byte) : (s.holdPayloadByte b).events = s.events := s.memWrite_events _ b
@[simp] theorem State.holdPayloadByte_portLog (b : Byte) : (s.holdPayloadByte b).portLog = s.portLog := s.memWrite_portLog _ b
@[simp] theorem State.holdPayloadByte_gap (b : Byte) : (s.holdPayloadByte b).gap = s.gap := s.memWrite_gap _ b
@[simp] theorem State.holdPayloadByte_gapDraws (b : Byte) : (s.holdPayloadByte b).gapDraws = s.gapDraws := s.memWrite_gapDraws _ b

end Sys2Proof.Machine
end

