-- ==== Sys2Proof/Laws/Ops.lean ====
section
/-! SUPPORT. One lemma for each shared operation that says what it can do: the payload buffer, the header decoder, the
payload reassembler, the demultiplexer switch and the beats of a chunk. -/

namespace Sys2Proof.Machine

/-! ### The payload buffer -/

theorem unwrittenBytes_length (d start count : Nat) : (unwrittenBytes d start count).length = count := by
  simp [unwrittenBytes]

@[simp] theorem unwrittenBytes_none (d start : Nat) : unwrittenBytes d start 0 = [] := rfl

/-- Writing at the next free offset appends (R52). -/
theorem State.memWrite_append (s : State) (b : Byte) :
    s.memWrite s.pbuf.length b = { s with pbuf := s.pbuf ++ [b] } := by
  simp [State.memWrite]

/-- Inside the buffer or at its end, a write changes the byte at its offset and no other (R9). -/
theorem State.memWrite_pbufByte (s : State) (i j : Nat) (b : Byte) (h : i ≤ s.pbuf.length) :
    (s.memWrite i b).pbufByte j = if j = i then some b else s.pbufByte j := by
  unfold State.memWrite State.pbufByte
  rw [if_pos h]
  rcases Nat.lt_trichotomy j i with hj | hj | hj
  · rw [if_neg (by omega), List.getElem?_append_left (by simp; omega), List.getElem?_take_of_lt hj]
  · subst hj
    rw [if_pos rfl, List.getElem?_append_right (by simp)]
    simp [Nat.min_eq_left h]
  · rw [if_neg (by omega), List.getElem?_append_right (by simp; omega), List.length_take, Nat.min_eq_left h,
      show j - i = (j - i - 1) + 1 by omega, List.getElem?_cons_succ, List.getElem?_drop]
    congr 1
    omega

/-- A write inside the capacity keeps the buffer's form. -/
theorem State.memWrite_wf (s : State) (i : Nat) (b : Byte) (hw : Memory.wf s.pbuf = true)
    (hi : i < Config.payloadCap) : Memory.wf (s.memWrite i b).pbuf = true := by
  simp only [Memory.wf, decide_eq_true_eq] at *
  unfold State.memWrite
  split
  · simp only [List.length_append, List.length_take, List.length_cons, List.length_drop]
    omega
  · simp only [List.length_append, unwrittenBytes_length, List.length_cons, List.length_nil]
    omega

/-- Reading what the buffer holds gives its first `n` bytes (R9). -/
theorem State.memRead_held (s : State) (n : Nat) (h : n ≤ s.pbuf.length) : s.memRead n = s.pbuf.take n := by
  simp [State.memRead, Nat.sub_eq_zero_of_le h]

/-- Reading a whole buffer gives it (R52: "every byte written since the header completed"). -/
theorem State.memRead_all (s : State) : s.memRead s.pbuf.length = s.pbuf := by
  simp [State.memRead]

/-- Reading what the buffer holds draws no free value. -/
theorem State.afterRead_held (s : State) (n : Nat) (h : n ≤ s.pbuf.length) : s.afterRead n = s := if_pos h

/-- The cursor clearing operations leave the buffer's form. -/
theorem Memory.wf_nil : Memory.wf [] = true := by decide

theorem reset_memory_wf : Memory.wf State.reset.pbuf = true := by decide

/-! ### Header decoder -/

/-- No 32-bit length exceeds `PAYLOAD_CAP`, so the header decoder of a conforming block never faults (D9). -/
theorem State.headerComplete_next (s : State) (c : Byte) (l : Len) :
    s.headerComplete c l =
      .next (if l = 0#32 then (s.storeHeader c l).complete else s.storeHeader c l) := by
  unfold State.headerComplete
  rw [if_neg (by have := l.isLt; unfold Config.payloadCap; omega)]
  split <;> rfl

theorem State.headerStep_hold (s : State) (b : Byte) (h : s.hcnt.toNat < 4) :
    s.headerStep b = .next (s.holdHeaderByte b) := by
  unfold State.headerStep
  rw [if_pos (by simpa [BitVec.ult] using h)]

theorem State.headerStep_complete (s : State) (b : Byte) (h : 4 ≤ s.hcnt.toNat) :
    s.headerStep b = s.headerComplete (hbufChannel s.hbuf) (hbufLength s.hbuf b) := by
  unfold State.headerStep
  rw [if_neg (by simpa [BitVec.ult] using h)]

/-- What the header decoder can do with a byte: it always answers a next state. -/
theorem State.headerStep_next (s : State) (b : Byte) : ∃ t, s.headerStep b = .next t := by
  by_cases h : s.hcnt.toNat < 4
  · exact ⟨_, s.headerStep_hold b h⟩
  · rw [s.headerStep_complete b (by omega), State.headerComplete_next]
    exact ⟨_, rfl⟩

/-- Header byte `k` is where R25 puts it. -/
theorem hbufByte_setHbufByte (k j : Nat) (b : Byte) (h : BitVec 32) (hk : k < 4) (hj : j < 4) :
    hbufByte j (setHbufByte k b h) = if j = k then b else hbufByte j h := by
  have hk' : k = 0 ∨ k = 1 ∨ k = 2 ∨ k = 3 := by omega
  have hj' : j = 0 ∨ j = 1 ∨ j = 2 ∨ j = 3 := by omega
  rcases hk' with rfl | rfl | rfl | rfl <;> rcases hj' with rfl | rfl | rfl | rfl <;>
    · ext i hi
      simp only [hbufByte, setHbufByte, BitVec.getElem_extractLsb', BitVec.getLsbD_append, BitVec.getLsbD_extractLsb',
        if_true, if_false, Nat.reduceEqDiff, Nat.reduceMul, Nat.reduceSub]
      split_ifs <;> simp_all <;> try omega
      all_goals (rw [decide_eq_true (by omega), Bool.true_and]; congr 1; omega)

/-- Bytes of `HBUF` decide it. -/
theorem hbuf_ext (g h : BitVec 32) (hk : ∀ k < 4, hbufByte k g = hbufByte k h) : g = h := by
  have e : ∀ x : BitVec 32, x = hbufByte 0 x ++ hbufByte 1 x ++ hbufByte 2 x ++ hbufByte 3 x := by
    intro x
    apply BitVec.eq_of_getLsbD_eq
    intro i hi
    simp only [hbufByte, BitVec.getLsbD_append, BitVec.getLsbD_extractLsb']
    split_ifs <;> rw [decide_eq_true (by omega), Bool.true_and] <;> congr 1 <;> omega
  rw [e g, e h, hk 0 (by omega), hk 1 (by omega), hk 2 (by omega), hk 3 (by omega)]

/-! ### Demultiplexer switch and payload reassembler -/

/-- What completing a frame does when the buffer holds exactly the payload (R135–R138): the one event, loaded on its
port, and an empty cursor. -/
theorem State.complete_whole (s : State) (h : s.pbuf.length = s.len.toNat) :
    s.complete =
      ((if s.routable then s.emit (.write (s.chan.extractLsb' 0 3) s.pbuf)
        else s.emit (.err ⟨2#2, s.chan, s.len⟩)).clearCursor) := by
  unfold State.complete State.dispatch State.unroutable State.raise
  rw [← h, s.memRead_all, s.afterRead_held _ le_rfl]
  rfl

/-- Completing a frame emits one event, whatever the buffer holds. -/
theorem State.complete_events (s : State) : ∃ e, s.complete.events = s.events ++ [e] := by
  unfold State.complete State.dispatch State.unroutable State.raise
  split <;> simp

/-- A routable channel id is its own low three bits, and these index a bound destination (R136). -/
theorem State.routable_chan (s : State) (h : s.routable = true) :
    (s.chan.extractLsb' 0 3).toNat < s.ndest.toNat := by
  simp only [State.routable, boundCount, BitVec.ult, decide_eq_true_eq, BitVec.truncate_eq_setWidth,
    BitVec.toNat_setWidth] at h
  simp only [BitVec.extractLsb'_toNat, Nat.shiftRight_zero]
  have h1 := Nat.mod_le s.chan.toNat (2 ^ 3)
  have h2 := Nat.mod_le s.ndest.toNat (2 ^ 8)
  omega

theorem State.routable_iff (s : State) : s.routable = true ↔ s.chan.toNat < s.ndest.toNat := by
  have := s.ndest.isLt
  simp only [State.routable, boundCount, BitVec.ult, decide_eq_true_eq, BitVec.truncate_eq_setWidth,
    BitVec.toNat_setWidth]
  rw [Nat.mod_eq_of_lt (by omega)]

/-- The next payload byte goes to the next free offset when the buffer holds `LEN − REM` bytes (R52, I5). -/
theorem State.payloadOffset_free (s : State) (h : s.pbuf.length + s.rem.toNat = s.len.toNat) :
    s.payloadOffset = s.pbuf.length := by
  unfold State.payloadOffset
  rw [BitVec.toNat_sub_of_le (by rw [BitVec.le_def]; omega)]
  omega

/-- Holding a payload byte appends it (R134). -/
theorem State.holdPayloadByte_append (s : State) (b : Byte) (h : s.pbuf.length + s.rem.toNat = s.len.toNat) :
    s.holdPayloadByte b = { s with pbuf := s.pbuf ++ [b], rem := s.rem - 1#32 } := by
  unfold State.holdPayloadByte
  rw [s.payloadOffset_free h, s.memWrite_append]

theorem State.payloadStep_more (s : State) (b : Byte) (h : s.rem ≠ 1#32) :
    s.payloadStep b = s.holdPayloadByte b := by
  unfold State.payloadStep
  rw [if_neg]
  intro e
  rw [State.holdPayloadByte_rem] at e
  exact h (by simpa using congrArg (· + 1#32) e)

theorem State.payloadStep_last (s : State) (b : Byte) (h : s.rem = 1#32) :
    s.payloadStep b = (s.holdPayloadByte b).complete := by
  unfold State.payloadStep
  rw [if_pos (by rw [State.holdPayloadByte_rem, h]; rfl)]

/-! ### Beats -/

theorem beatsOf_cons (c : BitVec 3) (b : Byte) (p : List Byte) :
    beatsOf c (b :: p) = ⟨c, b, p.isEmpty, false⟩ :: dataBeats c p := rfl

/-- When the first beat of a longer chunk has gone, the beats of the rest are left. -/
theorem beatsOf_tail (c : BitVec 3) (b b' : Byte) (p : List Byte) :
    (beatsOf c (b :: b' :: p)).tail = beatsOf c (b' :: p) := rfl

theorem beatsOf_ne_nil (c : BitVec 3) (p : List Byte) : beatsOf c p ≠ [] := by
  cases p <;> simp [beatsOf, dataBeats]

theorem dataBeats_chan (c : BitVec 3) (p : List Byte) : ∀ x ∈ dataBeats c p, x.chan = c := by
  induction p with
  | nil => simp [dataBeats]
  | cons b p ih => simpa [dataBeats] using ih

/-- Every beat of a chunk carries the chunk's destination. -/
theorem beatsOf_chan (c : BitVec 3) (p : List Byte) : ∀ x ∈ beatsOf c p, x.chan = c := by
  cases p with
  | nil => simp [beatsOf]
  | cons b p => exact dataBeats_chan c (b :: p)

/-- Destination `c` is told exactly when `c < NDEST` (R181). -/
theorem lowmask8_bit (k : BitVec 4) (c : Nat) (hc : c < 8) : (lowmask8 k).getLsbD c = decide (c < k.toNat) := by
  have : ∀ k : BitVec 4, ∀ c < 8, (lowmask8 k).getLsbD c = decide (c < k.toNat) := by decide
  exact this k c hc

end Sys2Proof.Machine
end

