-- ==== Sys2Proof/Laws/Exec.lean ====
section
/-! SUPPORT. Everything an instruction can do, said once: `exec_effect`. An invariant or a frame follows from it by a case
split on `Effect`, without unfolding a meaning. -/

namespace Sys2Proof.Machine

/-- The instructions that carry a byte of the stream: `BYTE`, and the header its bytes make up. -/
def carriesStream : Instr → Bool
  | .byte _ => true
  | .frameHeader _ _ => true
  | _ => false

/-- The ways an instruction can change the state, and which instructions each is open to. The two ways a frame completes
leave `hcnt` and `hbuf` cleared (from the header phase, R132) or as they were (from the payload phase, R138). -/
inductive Effect (i : Instr) (s : State) : State → Prop where
  /-- `NOP` (R100). -/
  | same (arg : Byte) (hi : i = .nop arg) : Effect i s s
  /-- A protocol violation (R205). -/
  | illSet (hi : ∀ arg, i ≠ .nop arg) : Effect i s { s with ill := true }
  /-- `SRST` (R102). -/
  | registersReset (hi : i = .srst) : Effect i s s.resetRegisters
  /-- `CFG` with a legal count (R101). -/
  | constructed (n : BitVec 4) (hi : i = .cfg n) (hm : s.mode = .unconf) (h1 : 1 ≤ n.toNat) (h8 : n.toNat ≤ 8) :
      Effect i s { s with ndest := n, mode := .run, cfgerr := false }
  /-- `CFG` with another count (R202). -/
  | configRefused (n : Byte) (k : BitVec 4) (hi : i = .cfg k) (hm : s.mode = .unconf) :
      Effect i s { s with
        cfgerr := true, events := s.events ++ [.err ⟨1#2, n, 0#32⟩], errOut := some ⟨1#2, n, 0#32⟩ }
  /-- A header byte is held (R131). -/
  | headerByteHeld (b : Byte) (hi : carriesStream i = true)
      (hm : s.mode = .run) (hp : s.phase = .header) (hc : s.hcnt.toNat < 4) :
      Effect i s (s.holdHeaderByte b)
  /-- A header with a payload to come is stored (R132). -/
  | headerStored (c : Byte) (l : Len) (hi : carriesStream i = true)
      (hm : s.mode = .run) (hp : s.phase = .header) (hl : l ≠ 0#32) :
      Effect i s (s.storeHeader c l)
  /-- A payload byte is held (R134); it is appended when the buffer holds `LEN − REM` bytes. -/
  | payloadByteHeld (b : Byte) (held : List Byte) (dr : Nat) (hi : carriesStream i = true)
      (hm : s.mode = .run) (hp : s.phase = .payload)
      (hr : s.rem ≠ 1#32)
      (happ : s.pbuf.length + s.rem.toNat = s.len.toNat → held = s.pbuf ++ [b] ∧ dr = s.draws) :
      Effect i s { s with pbuf := held, draws := dr, rem := s.rem - 1#32 }
  /-- A frame is sent to a bound destination (R136, R138). -/
  | frameSent (c : BitVec 3) (p : List Byte) (dr : Nat) (hc : BitVec 3) (hb : BitVec 32) (hi : carriesStream i = true)
      (hm : s.mode = .run)
      (hbound : c.toNat < s.ndest.toNat)
      (hh : hc = 0#3 ∧ hb = 0#32 ∨ s.phase = .payload ∧ hc = s.hcnt ∧ hb = s.hbuf) :
      Effect i s { s with
        pbuf := [], chan := 0#8, len := 0#32, rem := 0#32, phase := .header, hcnt := hc, hbuf := hb, draws := dr
        events := s.events ++ [.write c p], pending := beatsOf c p, gap := 0 }
  /-- A frame is reported unroutable (R137, R138). -/
  | frameUnroutable (c : Byte) (l : Len) (dr : Nat) (hc : BitVec 3) (hb : BitVec 32) (hi : carriesStream i = true)
      (hm : s.mode = .run)
      (hh : hc = 0#3 ∧ hb = 0#32 ∨ s.phase = .payload ∧ hc = s.hcnt ∧ hb = s.hbuf) :
      Effect i s { s with
        pbuf := [], chan := 0#8, len := 0#32, rem := 0#32, phase := .header, hcnt := hc, hbuf := hb, draws := dr
        events := s.events ++ [.err ⟨2#2, c, l⟩], errOut := some ⟨2#2, c, l⟩ }
  /-- `EOS` (R180). -/
  | streamEnded (hi : i = .eos) (hm : s.mode = .run) :
      Effect i s { s with
        pbuf := [], chan := 0#8, len := 0#32, rem := 0#32, phase := .header, hcnt := 0#3, hbuf := 0#32, mode := .ended
        events := s.events ++ [.endTo (lowmask8 s.ndest)], endOut := some (lowmask8 s.ndest) }

/-- What completing a frame does, whatever the buffer holds (R135–R138). -/
theorem State.complete_forms (s : State) :
    (∃ p dr, s.routable = true ∧ s.complete =
      { s with
        pbuf := [], chan := 0#8, len := 0#32, rem := 0#32, phase := .header, draws := dr
        events := s.events ++ [.write (s.chan.extractLsb' 0 3) p]
        pending := beatsOf (s.chan.extractLsb' 0 3) p, gap := 0 }) ∨
    s.complete =
      { s with
        pbuf := [], chan := 0#8, len := 0#32, rem := 0#32, phase := .header
        events := s.events ++ [.err ⟨2#2, s.chan, s.len⟩], errOut := some ⟨2#2, s.chan, s.len⟩ } := by
  unfold State.complete
  split
  · rename_i hr
    refine Or.inl ⟨s.memRead s.len.toNat, (s.afterRead s.len.toNat).draws, hr, ?_⟩
    unfold State.dispatch State.afterRead
    split <;> rfl
  · exact Or.inr rfl

theorem headerComplete_effect (i : Instr) (hi : carriesStream i = true) (c : Byte) (l : Len) (s : State)
    (hm : s.mode = .run) (hp : s.phase = .header) :
    ∃ t, s.headerComplete c l = .next t ∧ Effect i s t := by
  rw [State.headerComplete_next]
  by_cases hl : l = 0#32
  · rw [if_pos hl]
    refine ⟨_, rfl, ?_⟩
    rcases (s.storeHeader c l).complete_forms with ⟨p, dr, hr, e⟩ | e <;> rw [e]
    · exact .frameSent _ p dr 0#3 0#32 hi hm (State.routable_chan _ hr) (Or.inl ⟨rfl, rfl⟩)
    · exact .frameUnroutable c l _ 0#3 0#32 hi hm (Or.inl ⟨rfl, rfl⟩)
  · rw [if_neg hl]
    exact ⟨_, rfl, .headerStored c l hi hm hp hl⟩

theorem payloadStep_effect (i : Instr) (hi : carriesStream i = true) (b : Byte) (s : State)
    (hm : s.mode = .run) (hp : s.phase = .payload) :
    Effect i s (s.payloadStep b) := by
  by_cases hr : s.rem = 1#32
  · rw [s.payloadStep_last b hr]
    rcases (s.holdPayloadByte b).complete_forms with ⟨p, dr, h, e⟩ | e <;> rw [e] <;>
      simp only [State.holdPayloadByte_mode, State.holdPayloadByte_ndest, State.holdPayloadByte_hcnt,
        State.holdPayloadByte_hbuf, State.holdPayloadByte_chan, State.holdPayloadByte_len, State.holdPayloadByte_ill,
        State.holdPayloadByte_cfgerr, State.holdPayloadByte_rstHigh, State.holdPayloadByte_pending,
        State.holdPayloadByte_errOut, State.holdPayloadByte_endOut, State.holdPayloadByte_inputs,
        State.holdPayloadByte_events, State.holdPayloadByte_portLog, State.holdPayloadByte_gap,
        State.holdPayloadByte_gapDraws]
    · exact .frameSent _ p dr s.hcnt s.hbuf hi hm (by simpa using State.routable_chan _ h) (Or.inr ⟨hp, rfl, rfl⟩)
    · exact .frameUnroutable s.chan s.len _ s.hcnt s.hbuf hi hm (Or.inr ⟨hp, rfl, rfl⟩)
  · rw [s.payloadStep_more b hr]
    by_cases ho : s.payloadOffset ≤ s.pbuf.length
    · have e : s.holdPayloadByte b =
          { s with pbuf := (s.memWrite s.payloadOffset b).pbuf, draws := s.draws, rem := s.rem - 1#32 } := by
        unfold State.holdPayloadByte State.memWrite
        rw [if_pos ho]
      rw [e]
      refine .payloadByteHeld b _ _ hi hm hp hr fun h => ⟨?_, rfl⟩
      rw [s.payloadOffset_free h, s.memWrite_append]
    · have e : s.holdPayloadByte b =
          { s with
            pbuf := (s.memWrite s.payloadOffset b).pbuf, draws := s.draws + 1, rem := s.rem - 1#32 } := by
        unfold State.holdPayloadByte State.memWrite
        rw [if_neg ho]
      rw [e]
      exact .payloadByteHeld b _ _ hi hm hp hr fun h => absurd (s.payloadOffset_free h).le ho

theorem execByte_effect (b : Byte) (s : State) : ∃ t, exec (.byte b) s = .next t ∧ Effect (.byte b) s t := by
  by_cases hm : s.mode = .run
  · cases hp : s.phase with
    | header =>
      have e : exec (.byte b) s = s.headerStep b := by simp [exec, execByte, hm, hp]
      rw [e]
      by_cases h : s.hcnt.toNat < 4
      · exact ⟨_, s.headerStep_hold b h, .headerByteHeld b rfl hm hp h⟩
      · rw [s.headerStep_complete b (by omega)]
        exact headerComplete_effect _ rfl _ _ s hm hp
    | payload =>
      have e : exec (.byte b) s = .next (s.payloadStep b) := by simp [exec, execByte, hm, hp]
      exact ⟨_, e, payloadStep_effect _ rfl b s hm hp⟩
  · exact ⟨s.setIll, by simp [exec, execByte, hm], .illSet (by simp)⟩

theorem execFrameHeader_effect (c : Byte) (l : Len) (s : State) :
    ∃ t, exec (.frameHeader c l) s = .next t ∧ Effect (.frameHeader c l) s t := by
  by_cases hm : s.mode = .run
  · cases hp : s.phase with
    | header =>
      have e : exec (.frameHeader c l) s = s.headerComplete c l := by simp [exec, execFrameHeader, hm, hp]
      rw [e]
      exact headerComplete_effect _ rfl c l s hm hp
    | payload =>
      have e : exec (.frameHeader c l) s = .next (s.payloadStep (l.extractLsb' 0 8)) := by
        simp [exec, execFrameHeader, hm, hp]
      exact ⟨_, e, payloadStep_effect _ rfl _ s hm hp⟩
  · exact ⟨s.setIll, by simp [exec, execFrameHeader, hm], .illSet (by simp)⟩

theorem execCfg_effect (n : BitVec 4) (s : State) : ∃ t, exec (.cfg n) s = .next t ∧ Effect (.cfg n) s t := by
  simp only [exec, execCfg]
  split
  · exact ⟨_, rfl, .illSet (by simp)⟩
  · rename_i hm
    have hm : s.mode = .unconf := by simpa using hm
    split
    · rename_i h
      have hn : (cfgCount n).toNat = n.toNat := by
        simp only [cfgCount, BitVec.truncate_eq_setWidth, BitVec.toNat_setWidth]
        omega
      rw [hn] at h
      exact ⟨_, rfl, .constructed n rfl hm h.1 h.2⟩
    · exact ⟨_, rfl, .configRefused _ n rfl hm⟩

theorem execEos_effect (s : State) : ∃ t, exec .eos s = .next t ∧ Effect .eos s t := by
  simp only [exec, execEos]
  split
  · exact ⟨_, rfl, .illSet (by simp)⟩
  · rename_i hm
    exact ⟨_, rfl, .streamEnded rfl (by simpa using hm)⟩

/-- Every instruction answers a next state, and it is one of the forms of `Effect`. -/
theorem exec_effect (i : Instr) (s : State) : ∃ t, exec i s = .next t ∧ Effect i s t := by
  cases i with
  | nop => exact ⟨_, rfl, .same _ rfl⟩
  | byte b => exact execByte_effect b s
  | eos => exact execEos_effect s
  | cfg n => exact execCfg_effect n s
  | srst => exact ⟨_, rfl, .registersReset rfl⟩
  | reservedOp5 => exact ⟨_, rfl, .illSet (by simp)⟩
  | reservedOp6 => exact ⟨_, rfl, .illSet (by simp)⟩
  | reservedOp7 => exact ⟨_, rfl, .illSet (by simp)⟩
  | illegalOther => exact ⟨_, rfl, .illSet (by simp)⟩
  | frameHeader c l => exact execFrameHeader_effect c l s

/-- The form in which invariants use it. -/
theorem effect_of_exec (i : Instr) (s t : State) (h : exec i s = .next t) : Effect i s t := by
  obtain ⟨u, hu, he⟩ := exec_effect i s
  rw [hu] at h
  cases h
  exact he

end Sys2Proof.Machine
end

