-- ==== Sys2Proof/Laws/PerInstr.lean ====
section
/-! SUPPORT. The statements made per instruction: the family `EncodeDecode`, that decoding the encoding of a well-formed
instruction gives it back. -/

namespace Sys2Proof.Laws.EncodeDecode

/-- Decoding the encoding of a well-formed instruction gives it back (R71–R78). -/
def Statement (i : Instr) : Prop := i.wellFormed = true → decode (encode i) = i

theorem nop (arg : Byte) : Statement (.nop arg) := fun _ => decodeWord_nop arg

theorem byte (b : Byte) : Statement (.byte b) := fun _ => decodeWord_byte b

theorem eos : Statement .eos := fun _ => decodeWord_eos

theorem cfg (n : BitVec 4) : Statement (.cfg n) := fun _ => decodeWord_cfg n

theorem srst : Statement .srst := fun _ => decodeWord_srst

theorem reservedOp5 (arg : Byte) : Statement (.reservedOp5 arg) := fun _ => decodeWord_reservedOp5 arg

theorem reservedOp6 (arg : Byte) : Statement (.reservedOp6 arg) := fun _ => decodeWord_reservedOp6 arg

theorem reservedOp7 (arg : Byte) : Statement (.reservedOp7 arg) := fun _ => decodeWord_reservedOp7 arg

theorem illegalOther (w : TxnWord) : Statement (.illegalOther w) := fun h => decodeWord_illegalOther w h

theorem frameHeader (c : Byte) (l : Len) : Statement (.frameHeader c l) := fun _ => by
  simp [decode, encode, decodeHeader]

end Sys2Proof.Laws.EncodeDecode
end

