-- ==== Sys2Proof/Laws/Ports.lean ====
section
/-! SUPPORT. The output ports field by field (R234), and what the shape of an event and of a beat keeps. -/

namespace Sys2Proof.Machine

/-! ### `State.outputs`, field by field -/

variable (s : State)

@[simp] theorem State.outputs_inReady : s.outputs.inReady = (s.rstHigh && s.pending.isEmpty) := rfl
@[simp] theorem State.outputs_dst : s.outputs.dst = if s.gap = 0 then s.pending.head? else none := rfl
@[simp] theorem State.outputs_dstEnd : s.outputs.dstEnd = s.endOut := rfl
@[simp] theorem State.outputs_err : s.outputs.err = s.errOut := rfl
@[simp] theorem State.outputs_status : s.outputs.status = s.status := rfl
@[simp] theorem State.outputs_dbgChan : s.outputs.dbgChan = s.chan := rfl
@[simp] theorem State.outputs_dbgLen : s.outputs.dbgLen = s.len := rfl
@[simp] theorem State.outputs_dbgRem : s.outputs.dbgRem = s.rem := rfl

/-! ### Shapes -/

@[simp] theorem Event.shape_write (c : BitVec 3) (p : List Byte) :
    (Event.write c p).shape = .write c (List.replicate p.length 0#8) := rfl
@[simp] theorem Event.shape_err (e : ErrWord) : (Event.err e).shape = .err e := rfl
@[simp] theorem Event.shape_endTo (m : Byte) : (Event.endTo m).shape = .endTo m := rfl
@[simp] theorem Beat.shape_mk (c : BitVec 3) (b : Byte) (l e : Bool) : (Beat.mk c b l e).shape = ⟨c, 0#8, l, e⟩ := rfl

/-- The beats of two chunks of one length differ in their bytes only. -/
theorem dataBeats_shape (c : BitVec 3) (p q : List Byte) (h : p.length = q.length) :
    (dataBeats c p).map Beat.shape = (dataBeats c q).map Beat.shape := by
  induction p generalizing q with
  | nil => rw [List.length_eq_zero_iff.1 h.symm]
  | cons b p ih =>
    cases q with
    | nil => cases h
    | cons b' q =>
      have hl : p.length = q.length := by simpa using h
      have he : p.isEmpty = q.isEmpty := by cases p <;> cases q <;> simp_all
      simp only [dataBeats, List.map_cons, Beat.shape_mk, he, ih q hl]

/-- So do those that a dispatch loads, the empty chunk's beat among them. -/
theorem beatsOf_shape (c : BitVec 3) (p q : List Byte) (h : p.length = q.length) :
    (beatsOf c p).map Beat.shape = (beatsOf c q).map Beat.shape := by
  cases p with
  | nil => rw [List.length_eq_zero_iff.1 h.symm]
  | cons b p =>
    cases q with
    | nil => cases h
    | cons b' q => exact dataBeats_shape c (b :: p) (b' :: q) h

end Sys2Proof.Machine
end

