-- ==== Sys2Proof/Laws/Run.lean ====
section
/-! SUPPORT. Runs of the transaction-level `Step` (R10): how they compose, and what a `BYTE` word does in each branch of
R130. -/

namespace Sys2Proof.Machine

/-! ### Composition -/

theorem transactAll_cons_next (w : TxnWord) (ws : List TxnWord) (s t : State) (h : transact w s = .next t) :
    transactAll (w :: ws) s = transactAll ws t := by
  simp only [transactAll, h]

/-- A run that answers a next state goes on from it. -/
theorem transactAll_append (ws vs : List TxnWord) (s t : State) (h : transactAll ws s = .next t) :
    transactAll (ws ++ vs) s = transactAll vs t := by
  induction ws generalizing s with
  | nil => simp only [transactAll, Host.Outcome.next.injEq] at h; rw [h]; rfl
  | cons w ws ih =>
    simp only [transactAll, List.cons_append] at h ⊢
    cases e : transact w s with
    | next u => rw [e] at h; exact ih u h
    | fault r => rw [e] at h; cases h
    | refused r => rw [e] at h; cases h

/-- An induction once for all runs: what holds at the start and is kept by each word's transaction holds at the end. -/
theorem transactAll_invariant (P : State → Prop) (ws : List TxnWord) (s t : State) (hs : P s)
    (hstep : ∀ w ∈ ws, ∀ u v, P u → transact w u = .next v → P v) (h : transactAll ws s = .next t) : P t := by
  induction ws generalizing s with
  | nil => simp only [transactAll, Host.Outcome.next.injEq] at h; exact h ▸ hs
  | cons w ws ih =>
    simp only [transactAll] at h
    cases e : transact w s with
    | next u =>
      rw [e] at h
      exact ih u (hstep w List.mem_cons_self s u hs e) (fun v hv => hstep v (List.mem_cons_of_mem _ hv)) h
    | fault r => rw [e] at h; cases h
    | refused r => rw [e] at h; cases h

/-! ### One `BYTE` word -/

@[simp] theorem transact_byteWord (b : Byte) (s : State) : transact (byteWord b) s = exec (.byte b) s := by
  rw [transact, byteWord, decodeWord_byte]

theorem execByte_awaitingHeader (b : Byte) (s : State) (hm : s.mode = .run) (hp : s.phase = .header) :
    exec (.byte b) s = s.headerStep b := by
  simp [exec, execByte, hm, hp]

theorem execByte_awaitingPayload (b : Byte) (s : State) (hm : s.mode = .run) (hp : s.phase = .payload) :
    exec (.byte b) s = .next (s.payloadStep b) := by
  simp [exec, execByte, hm, hp]

/-! ### The first four header bytes -/

/-- The four bytes of `HBUF` written out (R25). -/
theorem hbufByte_append (b0 b1 b2 b3 : Byte) (k : Nat) (hk : k < 4) :
    hbufByte k (b0 ++ b1 ++ b2 ++ b3) = if k = 0 then b0 else if k = 1 then b1 else if k = 2 then b2 else b3 := by
  have hk' : k = 0 ∨ k = 1 ∨ k = 2 ∨ k = 3 := by omega
  rcases hk' with rfl | rfl | rfl | rfl <;>
    · apply BitVec.eq_of_getLsbD_eq
      intro i hi
      simp only [hbufByte, BitVec.getLsbD_append, BitVec.getLsbD_extractLsb', if_true, if_false, Nat.reduceEqDiff,
        Nat.reduceMul, Nat.reduceSub, decide_eq_true hi, Bool.true_and]
      split_ifs <;> first | omega | (congr 1; omega)

/-- From an empty cursor, the first four header bytes are held (R25, R131). -/
theorem holdHeaderBytes (b0 b1 b2 b3 : Byte) (s : State) (hm : s.mode = .run) (hp : s.phase = .header)
    (hc : s.hcnt = 0#3) :
    transactAll [byteWord b0, byteWord b1, byteWord b2, byteWord b3] s =
      .next { s with hcnt := 4#3, hbuf := b0 ++ b1 ++ b2 ++ b3 } := by
  have step1 (b : Byte) (u : State) (h1 : u.mode = .run) (h2 : u.phase = .header) (h3 : u.hcnt.toNat < 4) :
      transact (byteWord b) u = .next (u.holdHeaderByte b) := by
    rw [transact_byteWord, execByte_awaitingHeader b u h1 h2, u.headerStep_hold b h3]
  rw [transactAll_cons_next _ _ _ _ (step1 b0 s hm hp (by simp [hc])),
    transactAll_cons_next _ _ _ _ (step1 b1 _ (by simp [hm]) (by simp [hp]) (by simp [hc])),
    transactAll_cons_next _ _ _ _ (step1 b2 _ (by simp [hm]) (by simp [hp]) (by simp [hc])),
    transactAll_cons_next _ _ _ _ (step1 b3 _ (by simp [hm]) (by simp [hp]) (by simp [hc]))]
  have e : (((s.holdHeaderByte b0).holdHeaderByte b1).holdHeaderByte b2).holdHeaderByte b3 =
      { s with
        hcnt := s.hcnt + 1#3 + 1#3 + 1#3 + 1#3
        hbuf := setHbufByte (s.hcnt + 1#3 + 1#3 + 1#3).toNat b3 (setHbufByte (s.hcnt + 1#3 + 1#3).toNat b2
          (setHbufByte (s.hcnt + 1#3).toNat b1 (setHbufByte s.hcnt.toNat b0 s.hbuf))) } := rfl
  rw [transactAll, e, hc]
  congr 2
  apply hbuf_ext
  intro k hk
  rw [hbufByte_append b0 b1 b2 b3 k hk, hbufByte_setHbufByte _ _ _ _ (by decide) hk,
    hbufByte_setHbufByte _ _ _ _ (by decide) hk, hbufByte_setHbufByte _ _ _ _ (by decide) hk,
    hbufByte_setHbufByte _ _ _ _ (by decide) hk]
  have hk' : k = 0 ∨ k = 1 ∨ k = 2 ∨ k = 3 := by omega
  rcases hk' with rfl | rfl | rfl | rfl <;> rfl

/-! ### The payload of a frame -/

/-- From a pending header of which the buffer holds `LEN − REM` bytes, the `REM` bytes that follow complete the frame with
a buffer of all of them (R134). -/
theorem payloadBytes_complete (p : List Byte) (s : State) (hm : s.mode = .run) (hp : s.phase = .payload)
    (hr : s.rem.toNat = p.length) (hl : s.pbuf.length + s.rem.toNat = s.len.toNat) (hne : p ≠ []) :
    transactAll (p.map byteWord) s = .next { s with pbuf := s.pbuf ++ p, rem := 0#32 }.complete := by
  induction p generalizing s with
  | nil => exact absurd rfl hne
  | cons b p ih =>
    have hb : transact (byteWord b) s = .next (s.payloadStep b) := by
      rw [transact_byteWord, execByte_awaitingPayload b s hm hp]
    rw [List.map_cons, transactAll_cons_next _ _ _ _ hb]
    cases p with
    | nil =>
      have h1 : s.rem = 1#32 := BitVec.eq_of_toNat_eq (by simpa using hr)
      rw [s.payloadStep_last b h1, s.holdPayloadByte_append b hl, h1]
      rfl
    | cons b' p =>
      have h1 : s.rem ≠ 1#32 := by
        intro e
        rw [e] at hr
        simp at hr
      have h2 : (s.rem - 1#32).toNat = (b' :: p).length := by
        rw [BitVec.toNat_sub_of_le (by rw [BitVec.le_def, hr]; simp), hr]
        simp
      have h3 : (s.pbuf ++ [b]).length + (s.rem - 1#32).toNat = s.len.toNat := by
        rw [h2, ← hl, hr]
        simp
        omega
      rw [s.payloadStep_more b h1, s.holdPayloadByte_append b hl,
        ih { s with pbuf := s.pbuf ++ [b], rem := s.rem - 1#32 } hm hp h2 h3 (by simp)]
      simp

end Sys2Proof.Machine
end

