-- ==== Sys2Proof/Laws/Step.lean ====
section
/-! SUPPORT. What a rising edge can do, said once (`step_effect`), with the port updates field by field, and how the
destination side follows the record of the ports. -/

namespace Sys2Proof.Machine

variable (s : State)

/-! ### `State.afterEdge` and `State.resetAtEdge`, field by field -/

@[simp] theorem State.afterEdge_mode : s.afterEdge.mode = s.mode := rfl
@[simp] theorem State.afterEdge_ndest : s.afterEdge.ndest = s.ndest := rfl
@[simp] theorem State.afterEdge_phase : s.afterEdge.phase = s.phase := rfl
@[simp] theorem State.afterEdge_hcnt : s.afterEdge.hcnt = s.hcnt := rfl
@[simp] theorem State.afterEdge_hbuf : s.afterEdge.hbuf = s.hbuf := rfl
@[simp] theorem State.afterEdge_chan : s.afterEdge.chan = s.chan := rfl
@[simp] theorem State.afterEdge_len : s.afterEdge.len = s.len := rfl
@[simp] theorem State.afterEdge_rem : s.afterEdge.rem = s.rem := rfl
@[simp] theorem State.afterEdge_pbuf : s.afterEdge.pbuf = s.pbuf := rfl
@[simp] theorem State.afterEdge_ill : s.afterEdge.ill = s.ill := rfl
@[simp] theorem State.afterEdge_cfgerr : s.afterEdge.cfgerr = s.cfgerr := rfl
@[simp] theorem State.afterEdge_rstHigh : s.afterEdge.rstHigh = true := rfl
@[simp] theorem State.afterEdge_pending : s.afterEdge.pending = if s.transfers then s.pending.tail else s.pending := rfl
@[simp] theorem State.afterEdge_errOut : s.afterEdge.errOut = none := rfl
@[simp] theorem State.afterEdge_endOut : s.afterEdge.endOut = none := rfl
@[simp] theorem State.afterEdge_inputs : s.afterEdge.inputs = s.inputs.tail := rfl
@[simp] theorem State.afterEdge_events : s.afterEdge.events = s.events := rfl
@[simp] theorem State.afterEdge_portLog : s.afterEdge.portLog = s.portLog ++ s.sampled := rfl
@[simp] theorem State.afterEdge_draws : s.afterEdge.draws = s.draws := rfl
@[simp] theorem State.afterEdge_gap :
    s.afterEdge.gap = if s.beatFollows then Config.beatGap s.gapDraws else s.gap - 1 := rfl
@[simp] theorem State.afterEdge_gapDraws :
    s.afterEdge.gapDraws = if s.beatFollows then s.gapDraws + 1 else s.gapDraws := rfl

@[simp] theorem State.resetAtEdge_mode : s.resetAtEdge.mode = .unconf := rfl
@[simp] theorem State.resetAtEdge_ndest : s.resetAtEdge.ndest = 0#4 := rfl
@[simp] theorem State.resetAtEdge_phase : s.resetAtEdge.phase = .header := rfl
@[simp] theorem State.resetAtEdge_hcnt : s.resetAtEdge.hcnt = 0#3 := rfl
@[simp] theorem State.resetAtEdge_hbuf : s.resetAtEdge.hbuf = 0#32 := rfl
@[simp] theorem State.resetAtEdge_chan : s.resetAtEdge.chan = 0#8 := rfl
@[simp] theorem State.resetAtEdge_len : s.resetAtEdge.len = 0#32 := rfl
@[simp] theorem State.resetAtEdge_rem : s.resetAtEdge.rem = 0#32 := rfl
@[simp] theorem State.resetAtEdge_pbuf : s.resetAtEdge.pbuf = [] := rfl
@[simp] theorem State.resetAtEdge_ill : s.resetAtEdge.ill = false := rfl
@[simp] theorem State.resetAtEdge_cfgerr : s.resetAtEdge.cfgerr = false := rfl
@[simp] theorem State.resetAtEdge_rstHigh : s.resetAtEdge.rstHigh = false := rfl
@[simp] theorem State.resetAtEdge_pending : s.resetAtEdge.pending = [] := rfl
@[simp] theorem State.resetAtEdge_errOut : s.resetAtEdge.errOut = none := rfl
@[simp] theorem State.resetAtEdge_endOut : s.resetAtEdge.endOut = none := rfl
@[simp] theorem State.resetAtEdge_inputs : s.resetAtEdge.inputs = s.inputs.tail := rfl
@[simp] theorem State.resetAtEdge_events : s.resetAtEdge.events = s.events := rfl
@[simp] theorem State.resetAtEdge_portLog : s.resetAtEdge.portLog = s.portLog ++ s.sampled ++ [.resetEdge] := rfl
@[simp] theorem State.resetAtEdge_draws : s.resetAtEdge.draws = s.draws := rfl
@[simp] theorem State.resetAtEdge_gap : s.resetAtEdge.gap = 0 := rfl
@[simp] theorem State.resetAtEdge_gapDraws : s.resetAtEdge.gapDraws = s.gapDraws := rfl

/-! ### The three forms of an edge -/

theorem step_of_reset (h : s.pins.rstN = false) : step s = .next s.resetAtEdge := by
  simp [step, h]

theorem step_of_hold (h : s.pins.rstN = true) (ha : s.accepts = false) : step s = .next s.afterEdge := by
  simp [step, h, ha]

theorem step_of_accept (ha : s.accepts = true) : step s = exec (decodeWord s.pins.inWord) s.afterEdge := by
  have h : s.pins.rstN = true := by
    simp only [State.accepts, Bool.and_eq_true] at ha
    exact ha.1.1
  simp [step, h, ha]

/-- A word is accepted only when no beat is pending (R235). -/
theorem pending_of_accepts (ha : s.accepts = true) : s.pending = [] := by
  simp only [State.accepts, State.inReady, Bool.and_eq_true, List.isEmpty_iff] at ha
  exact ha.2.2

/-- While no beat is pending none transfers. -/
theorem transfers_of_no_beat (h : s.pending = []) : s.transfers = false := by
  simp [State.transfers, State.dstValid, h]

/-- Where no beat transfers, none follows one. -/
theorem beatFollows_of_no_transfer (h : s.transfers = false) : s.beatFollows = false := by
  simp [State.beatFollows, h]

/-- While a beat is awaited none transfers. -/
theorem transfers_of_gap (h : s.gap ≠ 0) : s.transfers = false := by
  simp [State.transfers, State.dstValid, h]

/-- A beat that is presented transfers exactly if the destination side is ready. -/
theorem transfers_of_presented (hp : s.pending ≠ []) (h : s.gap = 0) : s.transfers = s.pins.dstReady := by
  simp [State.transfers, State.dstValid, hp, h]

/-- Everything an edge can do. -/
theorem step_effect (t : State) (h : step s = .next t) :
    s.pins.rstN = false ∧ t = s.resetAtEdge ∨
    s.pins.rstN = true ∧ s.accepts = false ∧ t = s.afterEdge ∨
    s.pins.rstN = true ∧ s.accepts = true ∧ s.pending = [] ∧ Effect (decodeWord s.pins.inWord) s.afterEdge t := by
  by_cases hr : s.pins.rstN = true
  · by_cases ha : s.accepts = true
    · rw [step_of_accept s ha] at h
      exact Or.inr (Or.inr ⟨hr, ha, pending_of_accepts s ha, effect_of_exec _ _ _ h⟩)
    · have ha : s.accepts = false := by simpa using ha
      rw [step_of_hold s hr ha] at h
      cases h
      exact Or.inr (Or.inl ⟨hr, ha, rfl⟩)
  · have hr : s.pins.rstN = false := by simpa using hr
    rw [step_of_reset s hr] at h
    cases h
    exact Or.inl ⟨hr, rfl⟩

/-! ### The destination side -/

theorem destView_append (log more : List PortSignal) :
    destView (log ++ more) = more.foldl DestView.sees (destView log) := by
  simp [destView, List.foldl_append]

/-- The strobes of a cycle change nothing on the destination side's chunks. -/
theorem sees_strobes (d : DestView) (e : Option ErrWord) (m : Option Byte) :
    ((e.map PortSignal.errStrobe).toList ++ (m.map PortSignal.endStrobe).toList).foldl DestView.sees d = d := by
  cases e <;> cases m <;> rfl

theorem writesOf_append (es fs : List Event) : writesOf (es ++ fs) = writesOf es ++ writesOf fs := by
  induction es with
  | nil => rfl
  | cons e es ih => cases e <;> simp [writesOf, ih]

theorem timesTold_append (c : Nat) (es fs : List Event) :
    timesTold c (es ++ fs) = timesTold c es + timesTold c fs := by
  induction es with
  | nil => simp [timesTold]
  | cons e es ih => cases e <;> simp [timesTold, ih, Nat.add_assoc]

end Sys2Proof.Machine
end

