-- ==== Sys2Proof/Tests/Slice0.lean ====
section
/-! SUPPORT. Small tests: each well-formedness check refusing an ill-formed term, each constructor's decoding on a word written
out from the spec's encoding of it, one step of each instruction with the result taken from the spec's own examples, and
for each statement with hypotheses a state that meets them (`witness_…`, at the boundary values of each clause). -/

namespace Sys2Proof.Machine.Tests

/-! ### Helpers -/

/-- The next state of an outcome, if it is one. -/
def nextState : Host.Outcome State Fault Refusal → Option State
  | .next s => some s
  | .fault _ => none
  | .refused _ => none

/-- What one instruction leaves, seen through `f`. -/
def after {α : Type} (i : Instr) (s : State) (f : State → α) : Option α := (nextState (exec i s)).map f

/-- A ready instance with `n` destinations and an empty cursor. -/
def running (n : BitVec 4) : State := { State.reset with mode := .run, ndest := n, rstHigh := true }

/-- `running n` with `k` header bytes held. -/
def inHeader (n : BitVec 4) (k : BitVec 3) (h : BitVec 32) : State := { running n with hcnt := k, hbuf := h }

/-- `running n` with a pending header and the given bytes held. -/
def inPayload (n : BitVec 4) (c : Byte) (l r : Len) (held : List Byte) : State :=
  { running n with phase := .payload, chan := c, len := l, rem := r, pbuf := held }

/-- `running 3` with the chunk `41 42` for destination 2 on the port. -/
def draining : State := { running 3#4 with pending := beatsOf 2#3 [0x41#8, 0x42#8] }

/-- `s` with the given samples on its pins. -/
def given (ps : List Pins) (s : State) : State := { s with inputs := ps }

/-! ### Well-formedness refuses -/

theorem test_wf_refuses_legal_eos : (Instr.illegalOther 0x200#11).wellFormed = false := by decide
theorem test_wf_refuses_legal_srst : (Instr.illegalOther 0x400#11).wellFormed = false := by decide
theorem test_wf_refuses_legal_cfg : (Instr.illegalOther 0x30F#11).wellFormed = false := by decide
theorem test_wf_refuses_nop_and_byte :
    (Instr.illegalOther 0x0FF#11).wellFormed = false ∧ (Instr.illegalOther 0x1FF#11).wellFormed = false := by decide
theorem test_wf_refuses_reserved :
    (Instr.illegalOther 0x500#11).wellFormed = false ∧ (Instr.illegalOther 0x6FF#11).wellFormed = false ∧
      (Instr.illegalOther 0x700#11).wellFormed = false := by decide

/-! ### Decoding, on words written from `30_encoding.md` R75 and R71 -/

theorem test_decode_nop : decode (.word 0b000_10100101#11) = .nop 0xA5#8 := by decide
theorem test_decode_byte : decode (.word 0b001_01100110#11) = .byte 0x66#8 := by decide
theorem test_decode_eos : decode (.word 0b010_00000000#11) = .eos := by decide
theorem test_decode_cfg : decode (.word 0b011_0000_1001#11) = .cfg 9#4 := by decide
theorem test_decode_srst : decode (.word 0b100_00000000#11) = .srst := by decide
theorem test_decode_reservedOp5 : decode (.word 0b101_00000001#11) = .reservedOp5 1#8 := by decide
theorem test_decode_reservedOp6 : decode (.word 0b110_10000000#11) = .reservedOp6 0x80#8 := by decide
theorem test_decode_reservedOp7 : decode (.word 0b111_11111111#11) = .reservedOp7 0xFF#8 := by decide
/-- The words `0x201`, `0x401` and `0x3F2` of R103 and V-CTL-6. -/
theorem test_decode_illegalOther :
    decode (.word 0b010_00000001#11) = .illegalOther 0x201#11 ∧
    decode (.word 0b100_00000001#11) = .illegalOther 0x401#11 ∧
    decode (.word 0b011_1111_0010#11) = .illegalOther 0x3F2#11 := by decide
/-- The header bytes `07 12 34 56 78` of V-HDR-1, the first in bits 39:32. -/
theorem test_decode_frameHeader :
    decode (.header 0b00000111_00010010_00110100_01010110_01111000#40) = .frameHeader 7#8 0x12345678#32 := by decide
/-- The host's numbering: two whole bytes for a word, five for a header, and no word with a twelfth bit. -/
theorem test_decodeTableWord :
    decodeTableWord 16 0x166 = some (.byte 0x66#8) ∧ decodeTableWord 40 0x0712345678 =
      some (.frameHeader 7#8 0x12345678#32) ∧ decodeTableWord 16 0x800 = none ∧ decodeTableWord 24 0 = none := by decide

/-! ### The assembler (R80, R81, with the words of Programs P1, P2 and P4) -/

/-- `FRAME 1, "bar"` of P1. -/
theorem test_asm_frame :
    assembleText ['F', 'R', 'A', 'M', 'E', ' ', '1', ',', ' ', '"', 'b', 'a', 'r', '"', ' ', ';', ' ', '1'] =
      some [0x101#11, 0x100#11, 0x100#11, 0x100#11, 0x103#11, 0x162#11, 0x161#11, 0x172#11] := by decide
/-- A program of a blank line, `.word 0x500`, `BYTE 'x'` and `SRST`. -/
theorem test_asm_lines :
    assembleText ['\n', '.', 'w', 'o', 'r', 'd', ' ', '0', 'x', '5', '0', '0', '\n', 'B', 'Y', 'T', 'E', ' ', '\'', 'x',
      '\'', '\n', 'S', 'R', 'S', 'T'] = some [0x500#11, 0x178#11, 0x400#11] := by decide
/-- An operand outside its range is an assembly error, not an illegal word (R80). -/
theorem test_asm_range :
    assembleText ['C', 'F', 'G', ' ', '1', '6'] = none ∧ assembleText ['B', 'Y', 'T', 'E', ' ', '2', '5', '6'] = none := by
  decide

/-! ### One step of each instruction, with the results the spec's examples give -/

/-- R100's example. -/
theorem test_nop : after (.nop 0#8) (inHeader 3#4 4#3 0x01020304#32) State.status = some 0x0E1#16 := by decide
/-- R101's examples: `CFG 2` and `CFG 9` from reset. -/
theorem test_cfg_two : after (.cfg 2#4) State.reset (fun t => (t.status, t.events)) = some (0x081#16, []) := by decide
theorem test_cfg_nine :
    after (.cfg 9#4) State.reset (fun t => (t.status, t.events)) = some (0x800#16, [.err ⟨1#2, 9#8, 0#32⟩]) := by decide
/-- R102's example. -/
theorem test_srst :
    after .srst { inPayload 3#4 2#8 256#32 254#32 [0xAA#8, 0xBB#8] with ill := true }
      (fun t => (t.status, t.dbgLen, t.dbgRem, t.events)) = some (0x000#16, 0#32, 0#32, []) := by decide
/-- R103's examples. -/
theorem test_reservedOp5 : after (.reservedOp5 0#8) (running 2#4) State.status = some 0x481#16 := by decide
theorem test_reservedOp6 : after (.reservedOp6 7#8) (running 2#4) State.status = some 0x481#16 := by decide
/-- V-CTL-4. -/
theorem test_reservedOp7 : after (.reservedOp7 0xFF#8) State.reset State.status = some 0x400#16 := by decide
theorem test_illegalOther : after (.illegalOther 0x3F2#11) (running 2#4) State.status = some 0x481#16 := by decide
/-- V-HDR-2: byte order; little-endian would give 1. -/
theorem test_byte_header :
    after (.byte 0#8) (inHeader 8#4 4#3 0x01010000#32) (fun t => (t.chan, t.len, t.rem, t.status)) =
      some (1#8, 0x01000000#32, 0x01000000#32, 0x205#16) := by decide
/-- V-RA-3: the last byte of the payload `00 FF` for destination 2 of 3. -/
theorem test_byte_payload :
    after (.byte 0xFF#8) (inPayload 3#4 2#8 2#32 1#32 [0x00#8]) (fun t => (t.status, t.events)) =
      some (0x0C1#16, [.write 2#3 [0x00#8, 0xFF#8]]) := by decide
/-- R180's example. -/
theorem test_eos :
    after .eos (inPayload 3#4 2#8 256#32 254#32 [0xAA#8, 0xBB#8]) (fun t => (t.status, t.events)) =
      some (0x0C2#16, [.endTo 0x07#8]) := by decide
/-- V-HDR-7: a header of length 0 for the unroutable id 255. -/
theorem test_frameHeader :
    after (.frameHeader 0xFF#8 0#32) (inHeader 8#4 4#3 0xFF000000#32) (fun t => (t.status, t.events)) =
      some (0x201#16, [.err ⟨2#2, 0xFF#8, 0#32⟩]) := by decide

/-! ### One edge -/

/-- R235: the cycle after a reset edge is not ready, so the word on the pins is not accepted. -/
theorem test_edge_after_reset :
    (nextState (step (given [⟨true, true, 0x302#11, true⟩] State.reset))).map
      (fun t => (t.status, t.inReady)) = some (0x000#16, true) := by decide
/-- The host's fetch of a word and of a header, from reset (log entries 2, 4). -/
theorem test_fetch_word :
    (nextState (step (State.reset.withFetchWord 16 0x302))).map State.status = some 0x081#16 := by decide
theorem test_fetch_header :
    (nextState (step (State.reset.withFetchWord 40 0x0712345678))).map
      (fun t => (t.chan, t.len, t.phase)) = some (7#8, 0x12345678#32, .payload) := by decide
/-- R236, log entry 9: while the next beat is awaited none is presented, none transfers, and no word is accepted. -/
theorem test_beat_awaited :
    (nextState (step (given [⟨true, true, 0x400#11, true⟩] { draining with gap := 2 }))).map
      (fun t => (t.dstBeat, t.pending.length, t.gap, t.portLog)) = some (none, 2, 1, []) := by decide
/-- R239: a chunk cut off by a reset is not delivered. -/
theorem test_reset_in_drain :
    (nextState (step (given [⟨false, true, 0x100#11, true⟩] draining))).map
      (fun t => (t.pending, destView t.portLog)) = some ([], ⟨[], []⟩) := by decide

/-! ### Witnesses: states and operands that meet the hypotheses of each statement -/

theorem witness_DecodeOfEncodeIsTheInstruction :
    (Instr.illegalOther 0x201#11).wellFormed = true ∧ (Instr.cfg 15#4).wellFormed = true := by decide

theorem witness_FrameHeaderTellsTheLength : [0x66#8, 0x6F#8, 0x6F#8].length < 2 ^ 32 ∧ ([] : List Byte).length < 2 ^ 32 := by
  decide

theorem witness_ResetEdgeResetsTheBlock : (given [⟨false, true, 0x100#11, true⟩] draining).pins.rstN = false := by decide

theorem witness_CfgBindsOneToEightDestinations :
    State.reset.mode = .unconf ∧ 1 ≤ (1#4).toNat ∧ (1#4).toNat ≤ 8 ∧ 1 ≤ (8#4).toNat ∧ (8#4).toNat ≤ 8 := by decide

theorem witness_CfgRaisesInvalidConfiguration :
    State.reset.mode = .unconf ∧ ((0#4).toNat = 0 ∨ 9 ≤ (0#4).toNat) ∧ ((9#4).toNat = 0 ∨ 9 ≤ (9#4).toNat) ∧
      ((15#4).toNat = 0 ∨ 9 ≤ (15#4).toNat) := by decide

theorem witness_NopChangesNothing : opField 0x000#11 = 0b000#3 ∧ opField 0x0FF#11 = 0b000#3 := by decide

/-- One word of each kind R103 names. -/
theorem witness_IllegalWordsOnlySetIll :
    opField 0x500#11 = 0b101#3 ∧ opField 0x6FF#11 = 0b110#3 ∧ opField 0x700#11 = 0b111#3 ∧
      (opField 0x201#11 = 0b010#3 ∧ argField 0x201#11 ≠ 0#8) ∧ (opField 0x4FF#11 = 0b100#3 ∧ argField 0x4FF#11 ≠ 0#8) ∧
      (opField 0x310#11 = 0b011#3 ∧ argHigh 0x310#11 ≠ 0#4) := by decide

theorem witness_ProtocolViolationsOnlySetIll :
    5 ≤ (opField 0x500#11).toNat ∧ isIllegalOther 0x3F2#11 = true ∧ (running 3#4).mode ≠ .unconf ∧ State.reset.mode ≠ .run ∧ { running 3#4 with mode := .ended }.mode ≠ .run := by decide

theorem witness_ByteHoldsAHeaderByte :
    (running 3#4).mode = .run ∧ (running 3#4).phase = .header ∧ (running 3#4).hcnt.toNat < 4 ∧
      (inHeader 3#4 3#3 0x07123400#32).hcnt.toNat < 4 ∧ (inHeader 3#4 3#3 0x07123400#32).phase = .header := by decide

theorem witness_FifthHeaderByteStoresTheHeader :
    (inHeader 3#4 4#3 0x02000000#32).mode = .run ∧ (inHeader 3#4 4#3 0x02000000#32).phase = .header ∧
      (inHeader 3#4 4#3 0x02000000#32).hcnt = 4#3 ∧
      (inHeader 3#4 4#3 0x02000000#32).hbuf.extractLsb' 0 24 ++ 1#8 ≠ 0#32 := by decide

/-- Both branches: id 2 is bound by 3 destinations, id 3 is not. -/
theorem witness_EmptyFrameCompletesAtItsHeader :
    (inHeader 3#4 4#3 0x02000000#32).mode = .run ∧ (inHeader 3#4 4#3 0x02000000#32).phase = .header ∧
      (inHeader 3#4 4#3 0x02000000#32).hcnt = 4#3 ∧
      (inHeader 3#4 4#3 0x02000000#32).hbuf.extractLsb' 0 24 ++ 0#8 = 0#32 ∧
      ((inHeader 3#4 4#3 0x02000000#32).hbuf.extractLsb' 24 8).toNat < (3#4).toNat ∧
      (inHeader 3#4 4#3 0x03000000#32).hbuf.extractLsb' 0 24 ++ 0#8 = 0#32 ∧
      ¬ ((inHeader 3#4 4#3 0x03000000#32).hbuf.extractLsb' 24 8).toNat < (3#4).toNat := by decide

theorem witness_FifthHeaderByteRunsTheDecodedHeader :
    (inHeader 3#4 4#3 0x02000000#32).mode = .run ∧ (inHeader 3#4 4#3 0x02000000#32).phase = .header ∧
      (inHeader 3#4 4#3 0x02000000#32).hcnt = 4#3 := by decide

/-- The three branches: a payload to come, and none for a bound and an unbound id. -/
theorem witness_FrameHeaderIsStoredOrCompletes :
    (running 3#4).mode = .run ∧ (running 3#4).phase = .header ∧ (1#32 : Len) ≠ 0#32 ∧
      (2#8 : Byte).toNat < (running 3#4).ndest.toNat ∧ ¬ (3#8 : Byte).toNat < (running 3#4).ndest.toNat := by decide

theorem witness_FrameHeaderElsewhereIsItsLastByte :
    State.reset.mode ≠ .run ∧ (inPayload 3#4 2#8 2#32 1#32 [0x41#8]).phase = .payload := by decide

theorem witness_HeaderBytesDecodeBigEndian :
    (running 3#4).mode = .run ∧ CursorEmpty (running 3#4) ∧
      0 < (0#8 : Byte).toNat + (0#8 : Byte).toNat + (0#8 : Byte).toNat + (1#8 : Byte).toNat := by decide

theorem witness_PayloadByteIsAppended :
    (inPayload 3#4 2#8 3#32 2#32 [0x41#8]).mode = .run ∧ (inPayload 3#4 2#8 3#32 2#32 [0x41#8]).phase = .payload ∧
      2 ≤ (inPayload 3#4 2#8 3#32 2#32 [0x41#8]).rem.toNat ∧
      (inPayload 3#4 2#8 3#32 2#32 [0x41#8]).pbuf.length + (2#32 : Len).toNat = (3#32 : Len).toNat := by decide

/-- At the end of the buffer, and inside it. -/
theorem witness_PayloadByteLandsAtItsOffset :
    (inPayload 3#4 2#8 3#32 2#32 [0x41#8]).rem ≠ 1#32 ∧
      ((3#32 : Len) - 2#32).toNat ≤ (inPayload 3#4 2#8 3#32 2#32 [0x41#8]).pbuf.length ∧
      ((3#32 : Len) - 3#32).toNat ≤ (inPayload 3#4 2#8 3#32 3#32 [0x41#8]).pbuf.length ∧
      (inPayload 3#4 2#8 3#32 2#32 [0x41#8]).mode = .run ∧
      (inPayload 3#4 2#8 3#32 2#32 [0x41#8]).phase = .payload := by decide

theorem witness_LastPayloadByteDispatchesTheFrame :
    (inPayload 3#4 2#8 2#32 1#32 [0x41#8]).mode = .run ∧ (inPayload 3#4 2#8 2#32 1#32 [0x41#8]).phase = .payload ∧
      (inPayload 3#4 2#8 2#32 1#32 [0x41#8]).rem = 1#32 ∧
      (inPayload 3#4 2#8 2#32 1#32 [0x41#8]).pbuf.length + 1 = (2#32 : Len).toNat ∧
      (2#8 : Byte).toNat < (3#4).toNat := by decide

theorem witness_LastPayloadByteReportsUnroutable :
    (inPayload 3#4 3#8 1#32 1#32 []).mode = .run ∧ (inPayload 3#4 3#8 1#32 1#32 []).phase = .payload ∧
      (inPayload 3#4 3#8 1#32 1#32 []).rem = 1#32 ∧
      (inPayload 3#4 3#8 1#32 1#32 []).pbuf.length + 1 = (1#32 : Len).toNat ∧
      (3#4).toNat ≤ (3#8 : Byte).toNat := by decide

/-- A frame for a bound destination, an empty frame, and an unroutable one. -/
theorem witness_FramesAreDispatchedInStreamOrder :
    (running 3#4).mode = .run ∧ CursorEmpty (running 3#4) ∧
      ∀ f ∈ ([(2#8, [0x41#8]), (0#8, []), (3#8, [0x42#8])] : List (Byte × List Byte)), f.2.length < 2 ^ 32 := by decide

theorem witness_RoundTrip :
    1 ≤ (2#4).toNat ∧ (2#4).toNat ≤ 8 ∧
      ∀ f ∈ ([(0#8, [0x66#8]), (1#8, [])] : List (Byte × List Byte)),
        f.1.toNat < (2#4).toNat ∧ f.2.length ≤ 2 ^ 32 - 1 := by decide

/-- A byte that completes the frame, and one that does not. -/
theorem witness_PayloadValuesDecideNothing :
    (inPayload 3#4 2#8 2#32 1#32 [0x41#8]).mode = .run ∧ (inPayload 3#4 2#8 2#32 1#32 [0x41#8]).phase = .payload ∧
      [0x00#8].length = (inPayload 3#4 2#8 2#32 1#32 [0x41#8]).pbuf.length ∧
      (inPayload 3#4 2#8 3#32 2#32 [0x41#8]).mode = .run ∧ (inPayload 3#4 2#8 3#32 2#32 [0x41#8]).phase = .payload ∧
      [0x00#8].length = (inPayload 3#4 2#8 3#32 2#32 [0x41#8]).pbuf.length := by decide

theorem witness_EosTellsEveryBoundDestination :
    (inPayload 3#4 2#8 256#32 254#32 [0xAA#8, 0xBB#8]).mode = .run ∧ State.reset.mode ≠ .run := by decide

/-- A run that ends the instance. -/
theorem witness_EndIsSentOncePerInstance :
    (running 3#4).mode ≠ .ended ∧ (∀ w ∈ [0x200#11, 0x200#11], decodeWord w ≠ .srst) ∧
      (nextState (transactAll [0x200#11, 0x200#11] (running 3#4))).isSome = true := by decide

theorem witness_EndedLastsUntilReset :
    { running 3#4 with mode := .ended }.mode = .ended ∧
      (∀ w ∈ [0x1AA#11, 0x200#11, 0x303#11], decodeWord w ≠ .srst) ∧
      (given [⟨false, false, 0#11, false⟩] { running 3#4 with mode := .ended }).mode = .ended ∧
      (given [⟨false, false, 0#11, false⟩] { running 3#4 with mode := .ended }).pins.rstN = false := by decide

theorem witness_AtMostOneEventPerTransaction :
    (nextState (exec .eos (running 3#4))).isSome = true ∧ State.reset.ill = false ∧
      (nextState (exec .eos State.reset)).map State.ill = some true := by decide

theorem witness_StatusLayout : LegalFields (inHeader 8#4 4#3 0x02000000#32) := by decide

theorem witness_WriteMatrix :
    (nextState (exec (.cfg 3#4) State.reset)).isSome = true ∧ (nextState (exec (.nop 0#8) State.reset)).isSome = true := by
  decide

/-- An accepted `BYTE`; and an `SRST` on the pins that the block does not accept, during a drain. -/
theorem witness_IllIsSticky :
    Instr.byte 0#8 ≠ .srst ∧ (nextState (exec (.byte 0#8) State.reset.setIll)).isSome = true ∧
      State.reset.setIll.ill = true ∧
      (given [⟨true, true, 0x100#11, true⟩] State.reset.setIll).pins.rstN = true ∧
      decodeWord (given [⟨true, true, 0x100#11, true⟩] State.reset.setIll).pins.inWord ≠ .srst ∧
      (nextState (step (given [⟨true, true, 0x100#11, true⟩] State.reset.setIll))).isSome = true ∧
      (given [⟨true, true, 0x400#11, true⟩] draining.setIll).pins.rstN = true ∧
      (given [⟨true, true, 0x400#11, true⟩] draining.setIll).accepts = false ∧ draining.setIll.ill = true ∧
      (nextState (step (given [⟨true, true, 0x400#11, true⟩] draining.setIll))).isSome = true :=
  ⟨by decide, by decide, by decide, by decide, by decide, by decide, by decide, by decide, by decide, by decide⟩

theorem witness_BindingsAreFixedForTheInstance :
    Instr.cfg 5#4 ≠ .srst ∧ (running 3#4).mode ≠ .unconf ∧ (nextState (exec (.cfg 5#4) (running 3#4))).isSome = true := by
  decide

theorem witness_UnconfiguredBlockDoesNoOutput :
    CursorEmpty State.reset ∧
      (∀ k u, transactAll ([0x309#11, 0x166#11, 0x200#11].take k) State.reset = .next u → u.mode = .unconf) ∧
      (nextState (transactAll [0x309#11, 0x166#11, 0x200#11] State.reset)).isSome = true := by
  refine ⟨by decide, fun k u h => ?_, by decide⟩
  have e : (nextState (transactAll ([0x309#11, 0x166#11, 0x200#11].take k) State.reset)).map State.mode =
      some .unconf := by
    match k with
    | 0 => decide
    | 1 => decide
    | 2 => decide
    | n + 3 => rw [List.take_of_length_le (by simp)]; decide
  rw [h] at e
  simpa [nextState] using e

theorem witness_StepRunsTheAcceptedWord :
    (given [⟨true, true, 0x102#11, false⟩] (running 3#4)).pins.rstN = true ∧
      (given [⟨true, true, 0x102#11, false⟩] (running 3#4)).pins.inValid = true ∧
      (given [⟨true, true, 0x102#11, false⟩] (running 3#4)).inReady = true := by decide

/-- The three reasons not to accept: no word, a pending beat, the cycle after a reset edge. -/
theorem witness_NoAcceptanceNoChange :
    (running 3#4).pins.rstN = true ∧ (running 3#4).pins.inValid = false ∧ draining.pins.rstN = true ∧
      draining.pending ≠ [] ∧ State.reset.pins.rstN = true ∧ State.reset.rstHigh = false := by decide

/-- A beat presented, and one awaited. -/
theorem witness_BeatIsHeldUntilReady :
    draining.pending = ⟨2#3, 0x41#8, false, false⟩ :: [⟨2#3, 0x42#8, true, false⟩] ∧ draining.errOut = none ∧
      draining.endOut = none ∧ (given [⟨true, true, 0x400#11, true⟩] draining).pins.rstN = true ∧
      (given [⟨true, true, 0x400#11, true⟩] draining).pins.dstReady = true ∧
      (given [⟨true, true, 0x400#11, false⟩] draining).pins.dstReady = false ∧ draining.gap = 0 ∧
      { draining with gap := 2 }.gap ≠ 0 := by decide

theorem witness_BeatsOfAChunk : [0x41#8] ≠ ([] : List Byte) ∧ [0x41#8][0]? = some 0x41#8 := by decide

/-- The pins for however many edges the drain takes. -/
theorem witness_DrainEndsWhenReady :
    draining.pending ≠ [] ∧ draining.errOut = none ∧ draining.endOut = none ∧
      ∀ n, n ≤ (List.replicate n (⟨true, true, 0x200#11, true⟩ : Pins)).length ∧
        ∀ p ∈ (List.replicate n (⟨true, true, 0x200#11, true⟩ : Pins)).take n, p.rstN = true ∧ p.dstReady = true := by
  refine ⟨by decide, rfl, rfl, fun n => ⟨by simp, fun p hp => ?_⟩⟩
  rw [List.eq_of_mem_replicate (List.mem_of_mem_take hp)]
  exact ⟨rfl, rfl⟩

theorem witness_HeldWordIsAcceptedAfterTheDrain :
    draining.pending ≠ [] ∧ draining.errOut = none ∧ draining.endOut = none := by decide

theorem witness_StrobesLastOneCycle :
    (nextState (step { running 3#4 with errOut := some ⟨2#2, 3#8, 1#32⟩ })).isSome = true ∧
      ((nextState (step (given [⟨true, true, 0x200#11, true⟩] (running 3#4)))).bind State.endOut) = some 0x07#8 ∧
      ((nextState (step (given [⟨true, true, 0x309#11, true⟩] { State.reset with rstHigh := true }))).bind
        State.errOut) = some ⟨1#2, 9#8, 0#32⟩ := by decide

theorem witness_DestinationNeverReadyStallsTheBlock :
    draining.pending ≠ [] ∧
      ∀ p ∈ (given [⟨true, true, 0x400#11, false⟩] draining).inputs, p.rstN = true ∧ p.dstReady = false := by decide

theorem witness_PortRunsAreTransactionRuns :
    (∀ p ∈ (given [⟨true, true, 0x102#11, true⟩] (running 3#4)).inputs, p.rstN = true) ∧
      (nextState (edges 2 (given [⟨true, true, 0x102#11, true⟩] (running 3#4)))).isSome = true := by decide

/-- In the middle of a payload, and in the middle of a header. -/
theorem witness_StepKeepsTheArchitecturalInvariants :
    ArchInv (inPayload 3#4 2#8 3#32 2#32 [0x41#8]) ∧ ArchInv (inHeader 3#4 2#3 0x02000000#32) ∧
      (nextState (exec (.byte 0#8) (inPayload 3#4 2#8 3#32 2#32 [0x41#8]))).isSome = true ∧
      (nextState (step (inPayload 3#4 2#8 3#32 2#32 [0x41#8]))).isSome = true ∧
      (nextState (transactAll [0x302#11, 0x101#11] State.reset)).isSome = true :=
  ⟨by decide, by decide, by decide, by decide, by decide⟩

theorem witness_StepKeepsTheBufferBound :
    ArchInv (inPayload 3#4 2#8 3#32 2#32 [0x41#8]) ∧
      (nextState (step (given [⟨true, true, 0x1FF#11, true⟩] (inPayload 3#4 2#8 3#32 2#32 [0x41#8])))).isSome = true := by
  decide

theorem witness_StepKeepsThePortInvariants :
    PortInv draining ∧ (nextState (step (given [⟨true, true, 0x400#11, true⟩] draining))).isSome = true := by decide

/-- In the middle of a drain: one beat of `41 42` has gone. -/
theorem witness_StepKeepsTheDeliveries :
    DeliveryInv { running 3#4 with
      events := [.write 2#3 [0x41#8, 0x42#8]], pending := beatsOf 2#3 [0x42#8]
      portLog := [.beat ⟨2#3, 0x41#8, false, false⟩] } := by
  refine ⟨fun h => absurd h (by decide), fun _ => ⟨[], 2#3, [0x42#8], rfl, by decide, List.Sublist.refl _⟩⟩

/-- The last byte of a frame that is sent, and an edge in the middle of a drain. -/
theorem witness_OutputsShowTheStateAfterTheLastWord :
    (inPayload 3#4 2#8 2#32 1#32 [0x41#8]).pending = [] ∧
      after (.byte 0x42#8) (inPayload 3#4 2#8 2#32 1#32 [0x41#8]) State.pending =
        some [⟨2#3, 0x41#8, false, false⟩, ⟨2#3, 0x42#8, true, false⟩] ∧
      (given [⟨true, true, 0x400#11, true⟩] draining).pins.rstN = true ∧
      (given [⟨true, true, 0x400#11, true⟩] draining).accepts = false ∧
      (nextState (step (given [⟨true, true, 0x400#11, true⟩] draining))).isSome = true :=
  ⟨by decide, by decide, by decide, by decide, by decide⟩

theorem witness_FrameLineAssemblesToTheFrame : [0x41#8, 0x42#8].length < 2 ^ 32 := by decide

end Sys2Proof.Machine.Tests
end

section
/-! PROOFS of the family `00_scope.md`: `Step` is total (R10), and where a payload byte lands (R9, R134). -/

namespace Sys2Proof.Machine

/-! ### `Step` is total -/

/-- No instruction faults or is refused, in any state (R10). -/
theorem exec_next (i : Instr) (s : State) : ∃ t, exec i s = .next t := by
  obtain ⟨t, ht, -⟩ := exec_effect i s
  exact ⟨t, ht⟩

/-- No edge does either: one that accepts a word answers as the word's instruction does, any other by the ports' own
work. -/
theorem step_next (s : State) : ∃ t, step s = .next t := by
  cases hr : s.pins.rstN with
  | false => exact ⟨_, step_of_reset s hr⟩
  | true =>
    cases ha : s.accepts with
    | false => exact ⟨_, step_of_hold s hr ha⟩
    | true =>
      rw [step_of_accept s ha]
      exact exec_next _ _

/-- Settles O34: `exec_next` for the instructions and `step_next` for the edges. -/
theorem everyInstructionAnswersANextState : Obligations.EveryInstructionAnswersANextState :=
  ⟨exec_next, step_next⟩

/-! ### Where a payload byte lands -/

/-- Inside the buffer or at its end, a write draws no free value: it changes the buffer only (R9). -/
theorem State.memWrite_frame (s : State) (i : Nat) (b : Byte) (h : i ≤ s.pbuf.length) :
    s.memWrite i b = { s with pbuf := (s.memWrite i b).pbuf } := by
  unfold State.memWrite
  rw [if_pos h]

/-- At an offset inside the buffer or at its end, holding a payload byte changes the buffer and `REM` only (R134). -/
theorem State.holdPayloadByte_frame (s : State) (b : Byte) (h : s.payloadOffset ≤ s.pbuf.length) :
    s.holdPayloadByte b = { s with pbuf := (s.holdPayloadByte b).pbuf, rem := s.rem - 1#32 } :=
  congrArg (fun t : State => { t with rem := s.rem - 1#32 }) (s.memWrite_frame _ b h)

/-- Holding a payload byte changes the buffer's byte at `LEN − REM` and no other (R134). -/
theorem State.holdPayloadByte_pbufByte (s : State) (a : Nat) (b : Byte) (h : s.payloadOffset ≤ s.pbuf.length) :
    (s.holdPayloadByte b).pbufByte a = if a = s.payloadOffset then some b else s.pbufByte a :=
  s.memWrite_pbufByte s.payloadOffset a b h

/-- Settles O24: a byte that is not the last is held and nothing more, so the two lemmas on `holdPayloadByte` say it. -/
theorem payloadByteLandsAtItsOffset : Obligations.PayloadByteLandsAtItsOffset := by
  intro b s hm hp hr ho
  have hheld (a : Nat) :
      (s.holdPayloadByte b).pbufByte a = if a = (s.len - s.rem).toNat then some b else s.pbufByte a :=
    s.holdPayloadByte_pbufByte a b ho
  refine ⟨s.holdPayloadByte b, ?_, ?_, fun a ha => ?_, s.holdPayloadByte_frame b ho⟩
  · rw [execByte_awaitingPayload b s hm hp, s.payloadStep_more b hr]
  · rw [hheld, if_pos rfl]
  · rw [hheld, if_neg ha]

end Sys2Proof.Machine
end

section
/-! PROOFS of the family `10_state.md`: the invariants (I1) to (I5) of R32, the write matrix of R39, `ILL` (R30), the
bindings (R22), and the readable registers `STATUS` (R33) and the debug ports (R34). -/

namespace Sys2Proof.Machine

/-! ### What an instruction may write (R39)

The columns of R39's table, and that an instruction without the mark leaves the column's fields as they are. -/

/-- The rows with a mark under `MODE`. -/
def mayWriteMode : Instr → Bool
  | .cfg _ | .eos | .srst => true
  | _ => false

/-- The rows with a mark under `NDEST`, which are those with a mark under `CFGERR`. -/
def mayWriteBinding : Instr → Bool
  | .cfg _ | .srst => true
  | _ => false

/-- The rows with a mark under the cursor, `PHASE` to `PBUF`; the frame header is taken as `BYTE` (log entry 5). -/
def mayWriteCursor : Instr → Bool
  | .eos | .srst => true
  | i => carriesStream i

theorem mayWriteCursor_of_carriesStream {i : Instr} (h : carriesStream i = true) : mayWriteCursor i = true := by
  cases i with
  | byte | frameHeader => rfl
  | _ => cases h

section
variable {i : Instr} {s t : State}

theorem Effect.mode_frame (e : Effect i s t) (h : mayWriteMode i = false) : t.mode = s.mode := by
  cases e with
  | registersReset hi => subst hi; cases h
  | constructed n hi => subst hi; cases h
  | streamEnded hi => subst hi; cases h
  | _ => rfl

theorem Effect.binding_frame (e : Effect i s t) (h : mayWriteBinding i = false) :
    t.ndest = s.ndest ∧ t.cfgerr = s.cfgerr := by
  cases e with
  | registersReset hi => subst hi; cases h
  | constructed n hi => subst hi; cases h
  | configRefused n k hi => subst hi; cases h
  | _ => exact ⟨rfl, rfl⟩

theorem Effect.cursor_frame (e : Effect i s t) (h : mayWriteCursor i = false) :
    t.phase = s.phase ∧ t.hcnt = s.hcnt ∧ t.hbuf = s.hbuf ∧ t.chan = s.chan ∧ t.len = s.len ∧ t.rem = s.rem ∧
      t.pbuf = s.pbuf := by
  have hs : ¬ carriesStream i = true := fun hi => by
    rw [mayWriteCursor_of_carriesStream hi] at h
    cases h
  cases e with
  | registersReset hi => subst hi; cases h
  | streamEnded hi => subst hi; cases h
  | headerByteHeld _ hi => exact absurd hi hs
  | headerStored _ _ hi => exact absurd hi hs
  | payloadByteHeld _ _ _ hi => exact absurd hi hs
  | frameSent _ _ _ _ _ hi => exact absurd hi hs
  | frameUnroutable _ _ _ _ _ hi => exact absurd hi hs
  | _ => exact ⟨rfl, rfl, rfl, rfl, rfl, rfl, rfl⟩

/-- No instruction touches the pins to come, the record of the ports, or what `in_ready` knows of `rst_n`. -/
theorem Effect.ports_frame (e : Effect i s t) :
    t.inputs = s.inputs ∧ t.portLog = s.portLog ∧ t.rstHigh = s.rstHigh := by
  cases e <;> exact ⟨rfl, rfl, rfl⟩

/-- `ILL` survives every instruction but `SRST` (R30). -/
theorem Effect.ill_sticky (e : Effect i s t) (hi : i ≠ .srst) (h : s.ill = true) : t.ill = true := by
  cases e with
  | registersReset hs => exact absurd hs hi
  | illSet => rfl
  | _ => exact h

/-- `NDEST` and the exit to `UNCONF` are written in `UNCONF` and by `SRST` only (R22). -/
theorem Effect.bindings_fixed (e : Effect i s t) (hi : i ≠ .srst) (hm : s.mode ≠ .unconf) :
    t.ndest = s.ndest ∧ t.mode ≠ .unconf := by
  cases e with
  | registersReset hs => exact absurd hs hi
  | constructed _ _ hu => exact absurd hu hm
  | streamEnded => exact ⟨rfl, nofun⟩
  | _ => exact ⟨rfl, hm⟩

end

/-- Settles O36: a lemma for each column of R39's table, read off row by row. -/
theorem writeMatrix : Obligations.WriteMatrix := by
  intro i s t h
  have e : Effect i s t := effect_of_exec i s t h
  refine ⟨?mode, ?binding, ?cursor, ?ill, e.ports_frame⟩
  case mode =>
    cases i with
    | cfg | eos | srst => trivial
    | _ => exact e.mode_frame rfl
  case binding =>
    cases i with
    | cfg | srst => trivial
    | _ => exact e.binding_frame rfl
  case cursor =>
    cases i with
    | byte | eos | srst | frameHeader => trivial
    | _ => exact e.cursor_frame rfl
  case ill =>
    cases i with
    | nop => cases h; rfl
    | _ => trivial

/-- Settles O37: `Effect.ill_sticky`, after the ports' part of the edge, which leaves `ILL` alone. -/
theorem illIsSticky : Obligations.IllIsSticky := by
  refine ⟨fun i s t hi h => (effect_of_exec i s t h).ill_sticky hi, fun s t hr hw h hill => ?_⟩
  rcases step_effect s t h with ⟨hr', -⟩ | ⟨-, -, rfl⟩ | ⟨-, ha, -, e⟩
  · rw [hr] at hr'
    cases hr'
  · exact hill
  · exact e.ill_sticky (hw ha) hill

/-- Settles O38: `Effect.bindings_fixed`. -/
theorem bindingsAreFixedForTheInstance : Obligations.BindingsAreFixedForTheInstance :=
  fun i s t hi hm h => (effect_of_exec i s t h).bindings_fixed hi hm

/-! ### The architectural invariants (R32) -/

/-- An empty cursor meets (I3) to (I5), so the bindings alone are left to check. -/
theorem archInv_of_cursorEmpty {s : State} (hn : s.ndest.toNat ≤ Config.nchMax) (hb : BoundIffConstructed s)
    (hc : CursorEmpty s) : ArchInv s := by
  obtain ⟨hphase, hhcnt, hhbuf, hchan, hlen, hrem, hpbuf⟩ := hc
  refine ⟨⟨by simp [hhcnt], hn⟩, hb, fun _ => ⟨hphase, hhcnt, hhbuf, hchan, hlen, hrem, hpbuf⟩,
    fun _ => ⟨hchan, hlen, hrem, hpbuf, fun k _ _ => ?_⟩, fun hp => ?_⟩
  · rw [hhbuf]
    exact BitVec.extractLsb'_zero
  · rw [hphase] at hp
    cases hp

theorem archInv_of_registersReset (s : State) : ArchInv s.resetRegisters :=
  archInv_of_cursorEmpty (Nat.zero_le _) ⟨fun _ => rfl, fun _ => rfl⟩ ⟨rfl, rfl, rfl, rfl, rfl, rfl, rfl⟩

theorem archInv_reset : ArchInv State.reset := archInv_of_registersReset State.reset

/-- A held header byte fills its place in `HBUF` and leaves the later places 0 (R131, I4). -/
theorem archInv_holdHeaderByte {s : State} (b : Byte) (h : ArchInv s) (hm : s.mode = .run) (hp : s.phase = .header)
    (hc : s.hcnt.toNat < 4) : ArchInv (s.holdHeaderByte b) := by
  obtain ⟨⟨-, hn⟩, hb, -, hheader, -⟩ := h
  obtain ⟨hchan, hlen, hrem, hpbuf, hzero⟩ := hheader hp
  have hcount : (s.hcnt + 1#3).toNat = s.hcnt.toNat + 1 :=
    BitVec.toNat_add_of_lt (by simp only [BitVec.toNat_ofNat]; omega)
  refine ⟨⟨?_, hn⟩, hb, fun hne => absurd hm hne, fun _ => ⟨hchan, hlen, hrem, hpbuf, fun k hk hle => ?_⟩,
    fun hp' => ?_⟩
  · rw [State.holdHeaderByte_hcnt, hcount]
    omega
  · rw [State.holdHeaderByte_hcnt, hcount] at hle
    rw [State.holdHeaderByte_hbuf, hbufByte_setHbufByte _ _ _ _ hc hk, if_neg (by omega)]
    exact hzero k hk (by omega)
  · rw [State.holdHeaderByte_phase, hp] at hp'
    cases hp'

/-- A stored header awaits all of its payload with an empty buffer (R132, I5). -/
theorem archInv_storeHeader {s : State} (c : Byte) (l : Len) (h : ArchInv s) (hm : s.mode = .run)
    (hp : s.phase = .header) (hl : l ≠ 0#32) : ArchInv (s.storeHeader c l) := by
  obtain ⟨⟨-, hn⟩, hb, -, hheader, -⟩ := h
  obtain ⟨-, -, -, hpbuf, -⟩ := hheader hp
  have hpos : 1 ≤ l.toNat := Nat.one_le_iff_ne_zero.2 fun h0 => hl (BitVec.eq_of_toNat_eq h0)
  exact ⟨⟨Nat.zero_le _, hn⟩, hb, fun hne => absurd hm hne, nofun,
    fun _ => ⟨rfl, rfl, hpos, le_rfl, by simp [hpbuf]⟩⟩

/-- A payload byte that is not the last moves one byte from those to come to those held (R134, I5). -/
theorem archInv_appendPayloadByte {s : State} (b : Byte) (h : ArchInv s) (hm : s.mode = .run) (hp : s.phase = .payload)
    (hr : s.rem ≠ 1#32) : ArchInv { s with pbuf := s.pbuf ++ [b], rem := s.rem - 1#32 } := by
  obtain ⟨⟨hcnt, hn⟩, hb, -, -, hpayload⟩ := h
  obtain ⟨hhcnt, hhbuf, hpos, hle, hheld⟩ := hpayload hp
  have hmore : s.rem.toNat ≠ 1 := fun h1 => hr (BitVec.eq_of_toNat_eq h1)
  have hcount : (s.rem - 1#32).toNat = s.rem.toNat - 1 := BitVec.toNat_sub_of_le hpos
  refine ⟨⟨hcnt, hn⟩, hb, fun hne => absurd hm hne, fun hp' => ?_, fun _ => ⟨hhcnt, hhbuf, ?_, ?_, ?_⟩⟩
  · rw [show s.phase = .header from hp'] at hp
    cases hp
  · show 1 ≤ (s.rem - 1#32).toNat
    omega
  · show (s.rem - 1#32).toNat ≤ s.len.toNat
    omega
  · show (s.pbuf ++ [b]).length + (s.rem - 1#32).toNat = s.len.toNat
    rw [List.length_append, List.length_singleton]
    omega

/-- When a frame completes, no header byte is left: either the header has just been read, or (I5) says so. -/
theorem headerBytes_clear {s : State} {hc : BitVec 3} {hb : BitVec 32} (h : ArchInv s)
    (hh : hc = 0#3 ∧ hb = 0#32 ∨ s.phase = .payload ∧ hc = s.hcnt ∧ hb = s.hbuf) : hc = 0#3 ∧ hb = 0#32 := by
  rcases hh with hz | ⟨hp, rfl, rfl⟩
  · exact hz
  · obtain ⟨-, -, -, -, hpayload⟩ := h
    obtain ⟨hhcnt, hhbuf, -⟩ := hpayload hp
    exact ⟨hhcnt, hhbuf⟩

/-- (I1) to (I5) survive everything an instruction can do. -/
theorem Effect.archInv {i : Instr} {s t : State} (e : Effect i s t) (h : ArchInv s) : ArchInv t := by
  have ⟨⟨_, hn⟩, hbound, houtside, _, hpayload⟩ := h
  cases e with
  | same => exact h
  | illSet => exact h
  | registersReset => exact archInv_of_registersReset s
  | constructed n _ hm h1 h8 =>
    have hne : n ≠ 0#4 := by
      rintro rfl
      exact absurd h1 (by decide)
    exact archInv_of_cursorEmpty h8 ⟨nofun, fun h0 => absurd h0 hne⟩ (houtside (by simp [hm]))
  | configRefused => exact h
  | headerByteHeld b _ hm hp hc => exact archInv_holdHeaderByte b h hm hp hc
  | headerStored c l _ hm hp hl => exact archInv_storeHeader c l h hm hp hl
  | payloadByteHeld b held dr _ hm hp hr happ =>
    obtain ⟨-, -, -, -, hheld⟩ := hpayload hp
    obtain ⟨rfl, rfl⟩ := happ hheld
    exact archInv_appendPayloadByte b h hm hp hr
  | frameSent _ _ _ _ _ _ _ _ hh =>
    obtain ⟨rfl, rfl⟩ := headerBytes_clear h hh
    exact archInv_of_cursorEmpty hn hbound ⟨rfl, rfl, rfl, rfl, rfl, rfl, rfl⟩
  | frameUnroutable _ _ _ _ _ _ _ hh =>
    obtain ⟨rfl, rfl⟩ := headerBytes_clear h hh
    exact archInv_of_cursorEmpty hn hbound ⟨rfl, rfl, rfl, rfl, rfl, rfl, rfl⟩
  | streamEnded _ hm =>
    have hne : s.ndest ≠ 0#4 := fun h0 => by
      rw [hbound.2 h0] at hm
      cases hm
    exact archInv_of_cursorEmpty hn ⟨nofun, fun h0 => absurd h0 hne⟩ ⟨rfl, rfl, rfl, rfl, rfl, rfl, rfl⟩

theorem exec_keeps_archInv (i : Instr) (s t : State) (h : ArchInv s) (he : exec i s = .next t) : ArchInv t :=
  (effect_of_exec i s t he).archInv h

/-- The ports' own work leaves every field of R20, so an edge keeps what its instruction keeps. -/
theorem step_keeps_archInv (s t : State) (h : ArchInv s) (hs : step s = .next t) : ArchInv t := by
  rcases step_effect s t hs with ⟨-, rfl⟩ | ⟨-, -, rfl⟩ | ⟨-, -, -, e⟩
  · exact archInv_of_registersReset s
  · exact h
  · exact e.archInv h

/-- Settles O51: the step lemmas for instructions and edges, and `transactAll_invariant` for the runs from reset. -/
theorem stepKeepsTheArchitecturalInvariants : Obligations.StepKeepsTheArchitecturalInvariants :=
  ⟨exec_keeps_archInv, step_keeps_archInv, fun ws t =>
    transactAll_invariant ArchInv ws State.reset t archInv_reset fun _ _ u v => exec_keeps_archInv _ u v⟩

/-- (I4) and (I5) bound the buffer: it holds less than a 32-bit `LEN` (R29). -/
theorem memory_wf_of_archInv {s : State} (h : ArchInv s) : Memory.wf s.pbuf = true := by
  obtain ⟨-, -, -, hheader, hpayload⟩ := h
  cases hp : s.phase with
  | header =>
    obtain ⟨-, -, -, hpbuf, -⟩ := hheader hp
    rw [hpbuf]
    exact Memory.wf_nil
  | payload =>
    obtain ⟨-, -, hpos, -, hheld⟩ := hpayload hp
    have hlen := s.len.isLt
    exact decide_eq_true (by unfold Config.payloadCap; omega)

/-- Settles O52: the state after the edge has (I1) to (I5), and these bound its buffer. -/
theorem stepKeepsTheBufferBound : Obligations.StepKeepsTheBufferBound :=
  fun s t h hs => memory_wf_of_archInv (step_keeps_archInv s t h hs)

/-! ### The reset state -/

theorem portInv_reset : PortInv State.reset := by decide

theorem deliveryInv_reset : DeliveryInv State.reset :=
  ⟨fun _ => ⟨rfl, List.Sublist.refl _⟩, fun h => absurd rfl h⟩

/-- Settles O9: one lemma for each of the three invariants. -/
theorem resetMeetsTheInvariants : Obligations.ResetMeetsTheInvariants :=
  ⟨archInv_reset, portInv_reset, deliveryInv_reset⟩

/-! ### The readable registers -/

/-- A field of `STATUS` is the field of the concatenation that R33 widens to 16 bits. -/
theorem State.status_field (s : State) (k n : Nat) (h : k + n ≤ 16) :
    s.status.extractLsb' k n =
      (BitVec.ofBool s.cfgerr ++ BitVec.ofBool s.ill ++ s.ndest ++ s.hcnt ++ s.phase.bits ++ s.mode.bits).extractLsb'
        k n :=
  BitVec.extractLsb'_setWidth_of_le h

/-! To read a field, drop the ones to its right, one `append` each. -/

theorem State.status_mode (s : State) : s.status.extractLsb' 0 2 = s.mode.bits := by
  rw [s.status_field _ _ (by decide)]
  exact BitVec.extractLsb'_append_eq_right

theorem State.status_phase (s : State) : s.status.extractLsb' 2 1 = s.phase.bits := by
  rw [s.status_field _ _ (by decide), BitVec.extractLsb'_append_eq_of_le (by decide)]
  exact BitVec.extractLsb'_append_eq_right

theorem State.status_hcnt (s : State) : s.status.extractLsb' 3 3 = s.hcnt := by
  rw [s.status_field _ _ (by decide)]
  iterate 2 rw [BitVec.extractLsb'_append_eq_of_le (by decide)]
  exact BitVec.extractLsb'_append_eq_right

theorem State.status_ndest (s : State) : s.status.extractLsb' 6 4 = s.ndest := by
  rw [s.status_field _ _ (by decide)]
  iterate 3 rw [BitVec.extractLsb'_append_eq_of_le (by decide)]
  exact BitVec.extractLsb'_append_eq_right

theorem State.status_ill (s : State) : s.status.extractLsb' 10 1 = BitVec.ofBool s.ill := by
  rw [s.status_field _ _ (by decide)]
  iterate 4 rw [BitVec.extractLsb'_append_eq_of_le (by decide)]
  exact BitVec.extractLsb'_append_eq_right

theorem State.status_cfgerr (s : State) : s.status.extractLsb' 11 1 = BitVec.ofBool s.cfgerr := by
  rw [s.status_field _ _ (by decide)]
  iterate 5 rw [BitVec.extractLsb'_append_eq_of_le (by decide)]
  exact BitVec.extractLsb'_eq_self

/-- Bits 15:12 stand past the twelve that the fields fill. -/
theorem State.status_reserved (s : State) : s.status.extractLsb' 12 4 = 0#4 := by
  rw [s.status_field _ _ (by decide)]
  ext i hi
  simp [BitVec.getElem_extractLsb', BitVec.getLsbD_of_ge]

/-- The 2-bit code 3 stands for no `MODE` (R21). -/
theorem Mode.bits_ne_three (m : Mode) : m.bits ≠ 3#2 := by
  cases m <;> decide

/-- Settles O40: the lemmas on the fields of `STATUS`; the bounds are those of (I1). -/
theorem statusLayout : Obligations.StatusLayout := by
  intro s
  refine ⟨s.status_mode, s.status_phase, s.status_hcnt, s.status_ndest, s.status_ill, s.status_cfgerr,
    s.status_reserved, rfl, ?_⟩
  rintro ⟨hhcnt, hndest⟩
  rw [s.status_mode, s.status_hcnt, s.status_ndest]
  exact ⟨s.mode.bits_ne_three, hhcnt, hndest⟩

/-- Settles O55: a debug port is the register it shows, and the reset state's registers are 0. -/
theorem debugPortsShowThePendingHeader : Obligations.DebugPortsShowThePendingHeader :=
  ⟨fun _ => ⟨rfl, rfl, rfl⟩, rfl, rfl, rfl⟩

end Sys2Proof.Machine
end

section
/-! PROOFS of the family `20_memory.md`: byte order (R54), payload bytes as opaque data (R55), and the ports as the carrier of
the transaction-level `Step` (R57). -/

namespace Sys2Proof.Machine

/-! ### Byte order (R54)

A header's five bytes, read as numbers. -/

theorem toNat_append_byte {n : Nat} (x : BitVec n) (b : Byte) : (x ++ b).toNat = x.toNat * 2 ^ 8 + b.toNat := by
  rw [BitVec.toNat_append, ← Nat.shiftLeft_add_eq_or_of_lt b.isLt, Nat.shiftLeft_eq]

theorem hbufChannel_of_bytes (b0 b1 b2 b3 : Byte) : hbufChannel (b0 ++ b1 ++ b2 ++ b3) = b0 :=
  hbufByte_append b0 b1 b2 b3 0 (by decide)

/-- The length is read with the first of its bytes as the most significant (R71). -/
theorem hbufLength_of_bytes_toNat (b0 b1 b2 b3 b4 : Byte) :
    (hbufLength (b0 ++ b1 ++ b2 ++ b3) b4).toNat =
      b1.toNat * 2 ^ 24 + b2.toNat * 2 ^ 16 + b3.toNat * 2 ^ 8 + b4.toNat := by
  have h1 := b1.isLt
  have h2 := b2.isLt
  have h3 := b3.isLt
  rw [hbufLength, toNat_append_byte, BitVec.extractLsb'_toNat, Nat.shiftRight_zero, toNat_append_byte,
    toNat_append_byte, toNat_append_byte]
  omega

/-- The fifth header byte stores a header with a payload to come (R132). -/
theorem execByte_fifthHeaderByte (b : Byte) (s : State) (hm : s.mode = .run) (hp : s.phase = .header)
    (hc : s.hcnt = 4#3) (hl : hbufLength s.hbuf b ≠ 0#32) :
    exec (.byte b) s = .next (s.storeHeader (hbufChannel s.hbuf) (hbufLength s.hbuf b)) := by
  rw [execByte_awaitingHeader b s hm hp, s.headerStep_complete b (by rw [hc]; decide), State.headerComplete_next,
    if_neg hl]

/-- Settles O22: `holdHeaderBytes` for the first four bytes; the fifth stores the header that `HBUF` and it make up. -/
theorem headerBytesDecodeBigEndian : Obligations.HeaderBytesDecodeBigEndian := by
  rintro b0 b1 b2 b3 b4 s hm ⟨hp, hhcnt, hhbuf, -⟩ hpos
  have hlen := hbufLength_of_bytes_toNat b0 b1 b2 b3 b4
  have hne : hbufLength (b0 ++ b1 ++ b2 ++ b3) b4 ≠ 0#32 := by
    intro h0
    rw [h0, BitVec.toNat_ofNat] at hlen
    omega
  have hfour := holdHeaderBytes b0 b1 b2 b3 s hm hp hhcnt
  have hfifth :=
    execByte_fifthHeaderByte b4 { s with hcnt := 4#3, hbuf := b0 ++ b1 ++ b2 ++ b3 } hm hp rfl hne
  rw [← transact_byteWord] at hfifth
  refine ⟨_, hlen, (transactAll_append _ [byteWord b4] _ _ hfour).trans ?_⟩
  rw [transactAll_cons_next _ _ _ _ hfifth]
  simp only [transactAll, State.storeHeader, hbufChannel_of_bytes, hhcnt, hhbuf]

/-! ### Completing a frame, and the buffer (R52, R135)

The equations of `Complete()` in every state, also where the buffer does not hold the whole payload (log entry 6). -/

section
variable (s : State)

theorem State.complete_of_routable (h : s.routable = true) :
    s.complete = { s with
      pbuf := [], chan := 0#8, len := 0#32, rem := 0#32, phase := .header
      draws := if s.len.toNat ≤ s.pbuf.length then s.draws else s.draws + 1
      events := s.events ++ [.write (s.chan.extractLsb' 0 3) (s.memRead s.len.toNat)]
      pending := beatsOf (s.chan.extractLsb' 0 3) (s.memRead s.len.toNat), gap := 0 } := by
  rw [State.complete, if_pos h, State.dispatch, State.afterRead]
  split <;> rfl

theorem State.complete_of_not_routable (h : ¬ s.routable = true) :
    s.complete = { s with
      pbuf := [], chan := 0#8, len := 0#32, rem := 0#32, phase := .header
      events := s.events ++ [.err ⟨2#2, s.chan, s.len⟩], errOut := some ⟨2#2, s.chan, s.len⟩ } := by
  rw [State.complete, if_neg h]
  rfl

/-- Reading gives as many bytes as are asked for, whatever the buffer holds. -/
theorem State.memRead_length (n : Nat) : (s.memRead n).length = n := by
  rw [State.memRead, List.length_append, List.length_take, unwrittenBytes_length]
  omega

end

/-! ### Payload bytes as opaque data (R55)

`s` and `{ s with pbuf := q }`, with `q` as long as the buffer, are any two states that differ in the payload bytes held. -/

section
variable (s : State)

/-- A write reaches up to its offset, whatever it writes (R9). -/
theorem State.memWrite_pbuf_length (i : Nat) (b : Byte) : (s.memWrite i b).pbuf.length = max s.pbuf.length (i + 1) := by
  unfold State.memWrite
  split
  · simp only [List.length_append, List.length_take, List.length_cons, List.length_drop]
    omega
  · simp only [List.length_append, unwrittenBytes_length, List.length_singleton]
    omega

/-- Apart from the buffer, a write sees the number of the bytes held only. -/
theorem State.memWrite_of_length_eq (i : Nat) (b b' : Byte) (q : List Byte) (h : q.length = s.pbuf.length) :
    State.memWrite i b' { s with pbuf := q } =
      { s.memWrite i b with pbuf := (State.memWrite i b' { s with pbuf := q }).pbuf } := by
  by_cases hi : i ≤ s.pbuf.length
  · rw [State.memWrite, State.memWrite, if_pos hi, if_pos (show i ≤ q.length by omega)]
  · rw [State.memWrite, State.memWrite, if_neg hi, if_neg (show ¬ i ≤ q.length by omega)]

/-- Holding a payload byte leaves two such states as two such states (R134). -/
theorem State.holdPayloadByte_of_length_eq (b b' : Byte) (q : List Byte) (h : q.length = s.pbuf.length) :
    ∃ r, r.length = (s.holdPayloadByte b).pbuf.length ∧
      State.holdPayloadByte b' { s with pbuf := q } = { s.holdPayloadByte b with pbuf := r } := by
  refine ⟨(State.memWrite s.payloadOffset b' { s with pbuf := q }).pbuf, ?_, ?_⟩
  · show _ = (s.memWrite s.payloadOffset b).pbuf.length
    rw [State.memWrite_pbuf_length, State.memWrite_pbuf_length, h]
  · exact congrArg (fun t : State => { t with rem := s.rem - 1#32 })
      (s.memWrite_of_length_eq s.payloadOffset b b' q h)

/-- Of two transactions from states with the events of `s`, to `t` and to `t'`: the two show the same but for the values of
payload bytes in the buffer, in the chunk of a `Write`, and in `dst_data`. -/
def SameButPayloadValues (s t t' : State) : Prop :=
  ∃ es es', t.events = s.events ++ es ∧ t'.events = s.events ++ es' ∧ es'.map Event.shape = es.map Event.shape ∧
    t'.pbuf.length = t.pbuf.length ∧ t'.pending.map Beat.shape = t.pending.map Beat.shape ∧
    t' = { t with pbuf := t'.pbuf, pending := t'.pending, events := t'.events }

/-- Completing a frame reads `LEN` bytes in either state, and a frame that is not routable not even these (R135–R137). -/
theorem State.complete_of_length_eq (r : List Byte) (h : r.length = s.pbuf.length) :
    SameButPayloadValues s s.complete (State.complete { s with pbuf := r }) := by
  by_cases hr : s.routable = true
  · rw [s.complete_of_routable hr, State.complete_of_routable { s with pbuf := r } hr]
    have hread : (State.memRead s.len.toNat { s with pbuf := r }).length = (s.memRead s.len.toNat).length := by
      rw [State.memRead_length, State.memRead_length]
    refine ⟨_, _, rfl, rfl, ?_, rfl, beatsOf_shape _ _ _ hread, ?_⟩
    · simp only [List.map_cons, List.map_nil, Event.shape_write, hread]
    · simp only [h]
  · rw [s.complete_of_not_routable hr, State.complete_of_not_routable { s with pbuf := r } hr]
    exact ⟨_, _, rfl, rfl, rfl, rfl, rfl, rfl⟩

theorem State.payloadStep_of_length_eq (b b' : Byte) (q : List Byte) (h : q.length = s.pbuf.length) :
    SameButPayloadValues s (s.payloadStep b) (State.payloadStep b' { s with pbuf := q }) := by
  obtain ⟨r, hr, hheld⟩ := s.holdPayloadByte_of_length_eq b b' q h
  by_cases hlast : s.rem = 1#32
  · rw [s.payloadStep_last b hlast, State.payloadStep_last { s with pbuf := q } b' hlast, hheld]
    have hevents (es : List Event) : (s.holdPayloadByte b).events ++ es = s.events ++ es := by
      rw [State.holdPayloadByte_events]
    obtain ⟨es, es', hes, hes', hshape⟩ := (s.holdPayloadByte b).complete_of_length_eq r hr
    exact ⟨es, es', hes.trans (hevents es), hes'.trans (hevents es'), hshape⟩
  · rw [s.payloadStep_more b hlast, State.payloadStep_more { s with pbuf := q } b' hlast, hheld]
    have hes : (s.holdPayloadByte b).events = s.events ++ [] := by
      rw [State.holdPayloadByte_events, List.append_nil]
    exact ⟨[], [], hes, hes, rfl, hr, rfl, rfl⟩

end

/-- Settles O30: in `AWAITING_PAYLOAD` a `BYTE` is a step of the payload reassembler, in either state. -/
theorem payloadValuesDecideNothing : Obligations.PayloadValuesDecideNothing := by
  intro b b' q s hm hp hq
  obtain ⟨es, es', hsame⟩ := s.payloadStep_of_length_eq b b' q hq
  exact ⟨_, _, es, es', execByte_awaitingPayload b s hm hp,
    execByte_awaitingPayload b' { s with pbuf := q } hm hp, hsame⟩

/-! ### The port registers carry no part of the transaction state (R10, R57)

`State.portsAtRest` forgets what the ports show, so that two states are one state of `Step` exactly if they are equal at rest.
Each operation, and so each instruction, does to a state at rest what it does to the state. -/

/-- `s` with every field that `Step` does not see at its reset value. -/
def State.portsAtRest (s : State) : State :=
  { s with
    rstHigh := false, pending := [], errOut := none, endOut := none, inputs := [], portLog := [], gap := 0
    gapDraws := 0 }

theorem portsAtRest_eq_iff (s t : State) : s.portsAtRest = t.portsAtRest ↔ SameTransactionState s t := by
  simp [State.portsAtRest, State.mk.injEq]

section
variable (s : State)

theorem State.portsAtRest_afterEdge : s.afterEdge.portsAtRest = s.portsAtRest := rfl

theorem State.portsAtRest_memWrite (i : Nat) (b : Byte) :
    (s.portsAtRest.memWrite i b).portsAtRest = (s.memWrite i b).portsAtRest := by
  by_cases h : i ≤ s.pbuf.length
  · rw [State.memWrite, State.memWrite, if_pos h, if_pos (show i ≤ s.portsAtRest.pbuf.length from h)]
    rfl
  · rw [State.memWrite, State.memWrite, if_neg h, if_neg (show ¬ i ≤ s.portsAtRest.pbuf.length from h)]
    rfl

theorem State.portsAtRest_holdPayloadByte (b : Byte) :
    (s.portsAtRest.holdPayloadByte b).portsAtRest = (s.holdPayloadByte b).portsAtRest :=
  congrArg (fun t : State => { t with rem := s.rem - 1#32 }) (s.portsAtRest_memWrite s.payloadOffset b)


theorem State.portsAtRest_complete : s.portsAtRest.complete.portsAtRest = s.complete.portsAtRest := by
  by_cases h : s.routable = true
  · rw [s.complete_of_routable h, s.portsAtRest.complete_of_routable h]
    rfl
  · rw [s.complete_of_not_routable h, s.portsAtRest.complete_of_not_routable h]
    rfl

theorem State.portsAtRest_payloadStep (b : Byte) :
    (s.portsAtRest.payloadStep b).portsAtRest = (s.payloadStep b).portsAtRest := by
  have hheld := s.portsAtRest_holdPayloadByte b
  by_cases h : s.rem = 1#32
  · rw [s.payloadStep_last b h, s.portsAtRest.payloadStep_last b h, ← State.portsAtRest_complete, hheld,
      State.portsAtRest_complete]
  · rw [s.payloadStep_more b h, s.portsAtRest.payloadStep_more b h, hheld]

end

/-- Both outcomes are next states, and they are one state of `Step`. -/
def SameNext (o o' : Host.Outcome State Fault Refusal) : Prop :=
  ∃ t t', o = .next t ∧ o' = .next t' ∧ t'.portsAtRest = t.portsAtRest

theorem sameNext_next {t t' : State} (h : t'.portsAtRest = t.portsAtRest) : SameNext (.next t) (.next t') :=
  ⟨t, t', rfl, rfl, h⟩

/-- A branch on something the ports do not hold is taken on both sides. -/
theorem sameNext_ite {c : Prop} [Decidable c] {o₁ o₁' o₂ o₂' : Host.Outcome State Fault Refusal}
    (h₁ : SameNext o₁ o₁') (h₂ : SameNext o₂ o₂') :
    SameNext (if c then o₁ else o₂) (if c then o₁' else o₂') := by
  by_cases h : c
  · rwa [if_pos h, if_pos h]
  · rwa [if_neg h, if_neg h]

section
variable (s : State)

theorem headerComplete_portsAtRest (c : Byte) (l : Len) :
    SameNext (s.headerComplete c l) (s.portsAtRest.headerComplete c l) := by
  rw [State.headerComplete_next, State.headerComplete_next]
  have hstore : s.portsAtRest.storeHeader c l = (s.storeHeader c l).portsAtRest := rfl
  by_cases hl : l = 0#32
  · rw [if_pos hl, if_pos hl, hstore]
    exact sameNext_next (State.portsAtRest_complete _)
  · rw [if_neg hl, if_neg hl]
    exact sameNext_next rfl

theorem headerStep_portsAtRest (b : Byte) : SameNext (s.headerStep b) (s.portsAtRest.headerStep b) :=
  sameNext_ite (sameNext_next rfl) (headerComplete_portsAtRest s _ _)

theorem execByte_portsAtRest (b : Byte) : SameNext (execByte b s) (execByte b s.portsAtRest) :=
  sameNext_ite (sameNext_next rfl)
    (sameNext_ite (headerStep_portsAtRest s b) (sameNext_next (s.portsAtRest_payloadStep b)))

theorem execFrameHeader_portsAtRest (c : Byte) (l : Len) :
    SameNext (execFrameHeader c l s) (execFrameHeader c l s.portsAtRest) :=
  sameNext_ite (sameNext_next rfl)
    (sameNext_ite (headerComplete_portsAtRest s c l) (sameNext_next (s.portsAtRest_payloadStep _)))

theorem execCfg_portsAtRest (n : BitVec 4) : SameNext (execCfg n s) (execCfg n s.portsAtRest) :=
  sameNext_ite (sameNext_next rfl) (sameNext_ite (sameNext_next rfl) (sameNext_next rfl))

theorem execEos_portsAtRest : SameNext (execEos s) (execEos s.portsAtRest) :=
  sameNext_ite (sameNext_next rfl) (sameNext_next rfl)

/-- What an instruction does to the state of `Step` does not depend on the ports. -/
theorem exec_portsAtRest (i : Instr) : SameNext (exec i s) (exec i s.portsAtRest) := by
  cases i with
  | byte b => exact execByte_portsAtRest s b
  | eos => exact execEos_portsAtRest s
  | cfg n => exact execCfg_portsAtRest s n
  | frameHeader c l => exact execFrameHeader_portsAtRest s c l
  | nop | srst | reservedOp5 | reservedOp6 | reservedOp7 | illegalOther => exact sameNext_next rfl

end

/-- From states that are one state of `Step`, an instruction goes to states that are one. -/
theorem exec_of_portsAtRest_eq {i : Instr} {s s' t : State} (hs : s'.portsAtRest = s.portsAtRest)
    (h : exec i s = .next t) : ∃ t', exec i s' = .next t' ∧ t'.portsAtRest = t.portsAtRest := by
  obtain ⟨u, v, hu, hv, huv⟩ := exec_portsAtRest s i
  obtain ⟨u', v', hu', hv', huv'⟩ := exec_portsAtRest s' i
  rw [hu, Host.Outcome.next.injEq] at h
  rw [hs, hv, Host.Outcome.next.injEq] at hv'
  exact ⟨u', hu', by rw [← huv', ← hv', huv, h]⟩

/-- So does a run of words. -/
theorem transactAll_of_portsAtRest_eq {ws : List TxnWord} {s s' t : State} (hs : s'.portsAtRest = s.portsAtRest)
    (h : transactAll ws s = .next t) : ∃ t', transactAll ws s' = .next t' ∧ t'.portsAtRest = t.portsAtRest := by
  induction ws generalizing s s' with
  | nil =>
    rw [transactAll, Host.Outcome.next.injEq] at h
    exact ⟨s', rfl, h ▸ hs⟩
  | cons w ws ih =>
    obtain ⟨u, hu⟩ := exec_next (decodeWord w) s
    obtain ⟨u', hu', hrest⟩ := exec_of_portsAtRest_eq hs hu
    rw [transactAll_cons_next w ws s u hu] at h
    rw [transactAll_cons_next w ws s' u' hu']
    exact ih hrest h

/-! ### Edges carry out transactions (R57, R235) -/

/-- The words that the given pin samples present, in order. -/
def wordsPresented (ins : List Pins) : List TxnWord := (ins.filter fun p => p.inValid).map fun p => p.inWord

theorem wordsPresented_tail_sublist (ins : List Pins) : (wordsPresented ins.tail).Sublist (wordsPresented ins) :=
  ((List.tail_sublist ins).filter _).map _

/-- A word is accepted only from a sample that presents it, so not from the idle pins past the end (R235). -/
theorem wordsPresented_of_accepts (s : State) (h : s.accepts = true) :
    wordsPresented s.inputs = s.pins.inWord :: wordsPresented s.inputs.tail := by
  have hv : s.pins.inValid = true := by
    simp only [State.accepts, Bool.and_eq_true] at h
    exact h.1.2
  cases hi : s.inputs with
  | nil => simp [State.pins, hi, Pins.idle] at hv
  | cons p ins =>
    have hp : p.inValid = true := by simpa [State.pins, hi] using hv
    simp [wordsPresented, State.pins, hi, hp]

/-- An edge without a reset is a run of `Step` over the word that its sample presents, or over none. -/
theorem step_transacts {s t : State} (hr : s.pins.rstN = true) (h : step s = .next t) :
    t.inputs = s.inputs.tail ∧
      ∃ ws, (ws ++ wordsPresented s.inputs.tail).Sublist (wordsPresented s.inputs) ∧
        transactAll ws s.afterEdge = .next t := by
  cases ha : s.accepts with
  | false =>
    rw [step_of_hold s hr ha, Host.Outcome.next.injEq] at h
    subst h
    exact ⟨rfl, [], wordsPresented_tail_sublist s.inputs, rfl⟩
  | true =>
    rw [step_of_accept s ha] at h
    obtain ⟨hinputs, -⟩ := (effect_of_exec _ _ _ h).ports_frame
    refine ⟨hinputs, [s.pins.inWord], ?_, transactAll_cons_next _ [] _ _ h⟩
    rw [wordsPresented_of_accepts s ha]
    exact List.Sublist.refl _

/-- Past the end of the samples the pins are idle, so no reset is seen there either (log entry 1). -/
theorem State.pins_rstN (s : State) (h : ∀ p ∈ s.inputs, p.rstN = true) : s.pins.rstN = true := by
  cases hi : s.inputs with
  | nil => simp [State.pins, hi, Pins.idle]
  | cons p ins => simpa [State.pins, hi] using h p (by simp [hi])

/-- Settles O50, by induction on the edges: the run of the first edge (`step_transacts`), then that of the others, which the
state before the edge can follow as well as the state with the ports' work done (`transactAll_of_portsAtRest_eq`). -/
theorem portRunsAreTransactionRuns : Obligations.PortRunsAreTransactionRuns := by
  intro k
  induction k with
  | zero =>
    intro s t _ h
    rw [edges, Host.Outcome.next.injEq] at h
    exact ⟨[], s, List.nil_sublist _, rfl, (portsAtRest_eq_iff t s).1 (by rw [h])⟩
  | succ k ih =>
    intro s t hrst h
    obtain ⟨s₁, hs₁⟩ := step_next s
    rw [edges, hs₁] at h
    obtain ⟨hinputs, ws, hsub, hrun⟩ := step_transacts (s.pins_rstN hrst) hs₁
    obtain ⟨vs, u, hsub', hrun', hsame⟩ :=
      ih s₁ t (fun p hp => hrst p (List.mem_of_mem_tail (hinputs ▸ hp))) h
    have hall : transactAll (ws ++ vs) s.afterEdge = .next u := by
      rw [transactAll_append ws vs _ _ hrun, hrun']
    obtain ⟨u', hu', hrest⟩ := transactAll_of_portsAtRest_eq s.portsAtRest_afterEdge.symm hall
    rw [hinputs] at hsub'
    refine ⟨ws ++ vs, u', (hsub'.append_left ws).trans hsub, hu', (portsAtRest_eq_iff t u').1 ?_⟩
    rw [hrest, (portsAtRest_eq_iff t u).2 hsame]

end Sys2Proof.Machine
end

section
/-! PROOFS of the family `30_encoding.md`: the two encodings read back (R71–R78), the first-match table (R79), and the frames
of R73 as a header, as five `BYTE` words (R132) and as assembler lines (R81). -/

namespace Sys2Proof

/-! ### Decoding an encoding (R71–R78) -/

/-- Settles O1: one law for each row of the opcode table. -/
theorem decodeOfEncodeIsTheInstruction : Obligations.DecodeOfEncodeIsTheInstruction := by
  intro i
  cases i with
  | nop arg => exact Laws.EncodeDecode.nop arg
  | byte b => exact Laws.EncodeDecode.byte b
  | eos => exact Laws.EncodeDecode.eos
  | cfg n => exact Laws.EncodeDecode.cfg n
  | srst => exact Laws.EncodeDecode.srst
  | reservedOp5 arg => exact Laws.EncodeDecode.reservedOp5 arg
  | reservedOp6 arg => exact Laws.EncodeDecode.reservedOp6 arg
  | reservedOp7 arg => exact Laws.EncodeDecode.reservedOp7 arg
  | illegalOther w => exact Laws.EncodeDecode.illegalOther w
  | frameHeader c l => exact Laws.EncodeDecode.frameHeader c l

/-! ### Every value is an encoding (R72, R77)

Each word and each header is the encoding of a well-formed instruction. Which one follows from `OP` and, where bits of `ARG`
are reserved, from whether these are 0. -/

/-- R77 (b), (c), (d) for a word written from its fields. -/
theorem isIllegalOther_txnWord (op : BitVec 3) (a : Byte) :
    isIllegalOther (txnWord op a) =
      ((op == 2#3 && a != 0#8) || (op == 4#3 && a != 0#8) || (op == 3#3 && a.extractLsb' 4 4 != 0#4)) := by
  change ((opField (txnWord op a) == 2#3 && argField (txnWord op a) != 0#8) ||
    (opField (txnWord op a) == 4#3 && argField (txnWord op a) != 0#8) ||
    (opField (txnWord op a) == 3#3 && argHigh (txnWord op a) != 0#4)) = _
  simp

/-- An `ARG` whose reserved bits are 0 is the operand of a `CFG` (R75, R76). -/
theorem arg_of_high_zero (a : Byte) (h : a.extractLsb' 4 4 = 0#4) : 0#4 ++ a.extractLsb' 0 4 = a := by
  rw [← h]
  exact BitVec.extractLsb'_append_extractLsb' (w := 4) (len := 4) (x := a)

/-- The eight opcodes of R75 and R77. -/
theorem op_cases (op : BitVec 3) :
    op = 0#3 ∨ op = 1#3 ∨ op = 2#3 ∨ op = 3#3 ∨ op = 4#3 ∨ op = 5#3 ∨ op = 6#3 ∨ op = 7#3 := by
  revert op; decide

theorem exists_encode_eq_txnWord (op : BitVec 3) (a : Byte) :
    ∃ i : Instr, i.wellFormed = true ∧ encode i = .word (txnWord op a) := by
  obtain rfl | rfl | rfl | rfl | rfl | rfl | rfl | rfl := op_cases op
  · exact ⟨.nop a, rfl, rfl⟩
  · exact ⟨.byte a, rfl, rfl⟩
  · by_cases ha : a = 0#8
    · exact ⟨.eos, rfl, by rw [ha, encode]⟩
    · exact ⟨.illegalOther _, by simp [Instr.wellFormed, isIllegalOther_txnWord, ha], rfl⟩
  · by_cases ha : a.extractLsb' 4 4 = 0#4
    · exact ⟨.cfg (a.extractLsb' 0 4), rfl, by rw [encode, arg_of_high_zero a ha]⟩
    · exact ⟨.illegalOther _, by simp [Instr.wellFormed, isIllegalOther_txnWord, ha], rfl⟩
  · by_cases ha : a = 0#8
    · exact ⟨.srst, rfl, by rw [ha, encode]⟩
    · exact ⟨.illegalOther _, by simp [Instr.wellFormed, isIllegalOther_txnWord, ha], rfl⟩
  · exact ⟨.reservedOp5 a, rfl, rfl⟩
  · exact ⟨.reservedOp6 a, rfl, rfl⟩
  · exact ⟨.reservedOp7 a, rfl, rfl⟩

theorem exists_encode_eq (e : Encoded) : ∃ i : Instr, i.wellFormed = true ∧ encode i = e := by
  cases e with
  | word w =>
    rw [← txnWord_fields w]
    exact exists_encode_eq_txnWord _ _
  | header h => exact ⟨.frameHeader (headerChannel h) (headerLength h), rfl, by rw [encode, header_fields]⟩

/-- Settles O2: the value is the encoding of a well-formed instruction, and by O1 that is what it decodes to. -/
theorem encodeOfDecodeIsTheWord : Obligations.EncodeOfDecodeIsTheWord := by
  intro e
  obtain ⟨i, hwf, rfl⟩ := exists_encode_eq e
  rw [decodeOfEncodeIsTheInstruction i hwf]
  exact ⟨hwf, rfl⟩

/-! ### The header of a frame (R71, R73) -/

theorem decodeHeader_append (c : Byte) (l : Len) : decodeHeader (c ++ l) = .frameHeader c l := by
  rw [decodeHeader, headerChannel_append, headerLength_append]

/-- The bytes of a length, put together again in their order on the wire (R70). -/
theorem be32_lengthBytes (l : Len) :
    be32 (l.extractLsb' 24 8) (l.extractLsb' 16 8) (l.extractLsb' 8 8) (l.extractLsb' 0 8) = l := by
  have h1 : l.extractLsb' 24 8 ++ l.extractLsb' 16 8 = l.extractLsb' 16 16 :=
    BitVec.extractLsb'_append_extractLsb'_eq_extractLsb' (by decide)
  have h2 : l.extractLsb' 16 16 ++ l.extractLsb' 8 8 = l.extractLsb' 8 24 :=
    BitVec.extractLsb'_append_extractLsb'_eq_extractLsb' (by decide)
  have h3 : l.extractLsb' 8 24 ++ l.extractLsb' 0 8 = l :=
    BitVec.extractLsb'_append_extractLsb' (w := 24) (len := 8) (x := l)
  rw [be32, h1, h2, h3]

/-- A header is its first byte and the big-endian number of the other four (R71). -/
theorem headerOfBytes_eq_append (b0 b1 b2 b3 b4 : Byte) : headerOfBytes b0 b1 b2 b3 b4 = b0 ++ be32 b1 b2 b3 b4 := by
  have h2 : b0 ++ b1 ++ b2 = b0 ++ (b1 ++ b2) := BitVec.append_assoc
  have h3 : b0 ++ (b1 ++ b2) ++ b3 = b0 ++ (b1 ++ b2 ++ b3) := BitVec.append_assoc
  have h4 : b0 ++ (b1 ++ b2 ++ b3) ++ b4 = b0 ++ (b1 ++ b2 ++ b3 ++ b4) := BitVec.append_assoc
  rw [headerOfBytes, h2, h3, h4, be32]

/-- Settles O5: the header bytes are `c` and the bytes of `|p|`, which read back to the same fields. -/
theorem frameHeaderTellsTheLength : Obligations.FrameHeaderTellsTheLength := by
  intro c p _
  refine ⟨c, _, _, _, _, rfl, ?_⟩
  rw [headerOfBytes_eq_append, be32_lengthBytes, decodeHeader_append]

/-! ### The table (R79) -/

/-- A word is decided by its two fields (R74). -/
theorem txnWord_eq_iff (w v : TxnWord) : w = v ↔ opField w = opField v ∧ argField w = argField v := by
  refine ⟨fun h => by simp [h], fun ⟨hop, harg⟩ => ?_⟩
  rw [← txnWord_fields w, hop, harg, txnWord_fields]

/-- A row takes a word when it takes both of its fields. The slices of the row's own words are written out, so that `simp`
evaluates them at each row of the table. -/
theorem TableRow.takes_eq (r : TableRow) (w : TxnWord) :
    r.takes w = decide
      (opField w &&& r.mask.extractLsb' 8 3 = r.pattern.extractLsb' 8 3 ∧
        argField w &&& r.mask.extractLsb' 0 8 = r.pattern.extractLsb' 0 8) := by
  rw [Bool.eq_iff_iff, decide_eq_true_iff, TableRow.takes, beq_iff_eq, txnWord_eq_iff]
  simp only [opField, argField, BitVec.extractLsb'_and]

/-- The mask of the `CFG` row keeps the reserved bits of `ARG` (R75). -/
theorem argField_and_reserved (w : TxnWord) : argField w &&& 0xF0#8 = 0#8 ↔ argHigh w = 0#4 := by
  have hbyte : ∀ a : Byte, a &&& 0xF0#8 = 0#8 ↔ a.extractLsb' 4 4 = 0#4 := by decide
  rw [hbyte, ← argHigh_txnWord (opField w), txnWord_fields]

/-- One case for each `OP`; where bits of `ARG` are reserved, the default row takes the words in which these are not 0. -/
theorem tableDecode_eq (w : TxnWord) : tableDecode w = some (decodeWord w) := by
  have hfull : argField w &&& 0xFF#8 = argField w := BitVec.and_allOnes
  simp only [tableDecode, opcodeTable, List.find?_cons, TableRow.takes_eq, decodeWord]
  obtain hop | hop | hop | hop | hop | hop | hop | hop := op_cases (opField w)
  · simp [hop]
  · simp [hop]
  · by_cases harg : argField w = 0#8 <;> simp [hop, hfull, harg]
  · by_cases harg : argHigh w = 0#4 <;> simp [hop, argField_and_reserved, harg]
  · by_cases harg : argField w = 0#8 <;> simp [hop, hfull, harg]
  · simp [hop]
  · simp [hop]
  · simp [hop]

/-- Every row but the default one compares the whole of `OP`. -/
theorem opField_of_takes {r : TableRow} {w : TxnWord} (hr : r ∈ opcodeTable.dropLast) (h : r.takes w = true) :
    opField w = opField r.pattern := by
  have hmask : ∀ r ∈ opcodeTable.dropLast, r.mask.extractLsb' 8 3 = 7#3 := by simp [opcodeTable]
  rw [TableRow.takes_eq, decide_eq_true_iff, hmask r hr] at h
  obtain ⟨hop, -⟩ := h
  exact BitVec.and_allOnes.symm.trans hop

/-- Each `OP` has one row of its own before the default row. -/
theorem rows_of_op (op : BitVec 3) : (opcodeTable.dropLast.filter fun r => opField r.pattern == op).length = 1 := by
  revert op; decide

/-- No two rows before the default one overlap: they would both be the row of the word's `OP`. -/
theorem rows_taking_le_one (w : TxnWord) : (opcodeTable.dropLast.filter fun r => r.takes w).length ≤ 1 := by
  rw [← rows_of_op (opField w), ← List.countP_eq_length_filter, ← List.countP_eq_length_filter]
  refine List.countP_mono_left fun r hr h => ?_
  rw [opField_of_takes hr h, beq_self_eq_true]

/-- Settles O3: the first match case by case over `OP`, and at most one row before the default one by `OP` too. -/
theorem tableDecoderAgreesWithDecode : Obligations.TableDecoderAgreesWithDecode :=
  ⟨tableDecode_eq, rows_taking_le_one⟩

/-! ### Words written out -/

/-- Settles O4: each word is the encoding of its row, which decodes by the row's law. -/
theorem writtenOutWordsDecode : Obligations.WrittenOutWordsDecode :=
  ⟨decodeWord_nop 0xFF#8, decodeWord_byte 0x66#8, decodeWord_eos, decodeWord_cfg 9#4, decodeWord_srst,
    decodeWord_reservedOp5 0#8, decodeWord_illegalOther 0x201#11 rfl, decodeHeader_append 0x07#8 0x12345678#32⟩

end Sys2Proof

namespace Sys2Proof.Machine

/-! ### The fifth header byte (R132) -/

/-- `H[39:32]` is `HBUF[31:24]` when the first four header bytes are held (R71, R132). -/
theorem headerChannel_append_byte (h : BitVec 32) (b : Byte) : headerChannel (h ++ b) = hbufChannel h :=
  BitVec.extractLsb'_append_eq_of_le (by decide)

/-- `H[31:0]` is `HBUF[23:0]` and the fifth byte (R71, R132). -/
theorem headerLength_append_byte (h : BitVec 32) (b : Byte) : headerLength (h ++ b) = hbufLength h b := by
  rw [headerLength, BitVec.extractLsb'_append_eq_ite]
  simp [hbufLength]

theorem decodeHeader_append_byte (h : BitVec 32) (b : Byte) :
    decodeHeader (h ++ b) = .frameHeader (hbufChannel h) (hbufLength h b) := by
  rw [decodeHeader, headerChannel_append_byte, headerLength_append_byte]

theorem execFrameHeader_awaitingHeader (c : Byte) (l : Len) (s : State) (hm : s.mode = .run) (hp : s.phase = .header) :
    exec (.frameHeader c l) s = s.headerComplete c l := by
  simp [exec, execFrameHeader, hm, hp]

/-- Settles O19: both complete the header whose fields `HBUF` and the byte hold. -/
theorem fifthHeaderByteRunsTheDecodedHeader : Obligations.FifthHeaderByteRunsTheDecodedHeader := by
  intro b s hm hp hc
  rw [decodeHeader_append_byte, execFrameHeader_awaitingHeader _ _ s hm hp, execByte_awaitingHeader b s hm hp,
    s.headerStep_complete b (by rw [hc]; decide)]

/-! ### The assembler lines of a frame (R81) -/

/-- Bytes written as numbers assemble to themselves. -/
theorem asmBytes_map_toNat (p : List Byte) : asmBytes (p.map BitVec.toNat) = some p := by
  induction p with
  | nil => rfl
  | cons b p ih => rw [List.map_cons, asmBytes, if_pos b.isLt, ih, BitVec.ofNat_toNat, BitVec.setWidth_eq, Option.map_some]

theorem assembleLine_bytes (p : List Byte) :
    assembleLine (.bytes (p.map BitVec.toNat)) = some (p.map byteWord) := by
  rw [assembleLine, asmBytes_map_toNat, Option.map_some]

theorem assembleLine_hdr (c : Byte) (n : Nat) (hn : n < 2 ^ 32) :
    assembleLine (.hdr c.toNat n) = some ((headerBytes c (BitVec.ofNat 32 n)).map byteWord) := by
  rw [assembleLine, if_pos ⟨c.isLt, hn⟩, BitVec.ofNat_toNat, BitVec.setWidth_eq]

theorem assembleLine_frame (c : Byte) (p : List Byte) (hp : p.length < 2 ^ 32) :
    assembleLine (.frame c.toNat (p.map BitVec.toNat)) = some ((frameBytes c p).map byteWord) := by
  rw [assembleLine, if_pos ⟨c.isLt, by rwa [List.length_map]⟩, asmBytes_map_toNat, Option.map_some, BitVec.ofNat_toNat,
    BitVec.setWidth_eq]

/-- A program of two lines is the words of the first and then those of the second. -/
theorem assemble_pair (k l : AsmLine) (ws vs : List TxnWord) (hk : assembleLine k = some ws)
    (hl : assembleLine l = some vs) : assemble [k, l] = some (ws ++ vs) := by
  simp [assemble, hk, hl]

/-- Settles O6: `frame(c, p)` is the header bytes and then `p`, which are the words of the lines `HDR` and `BYTES`. -/
theorem frameLineAssemblesToTheFrame : Obligations.FrameLineAssemblesToTheFrame := by
  intro c p hp
  refine ⟨assembleLine_frame c p hp, ?_⟩
  rw [assemble_pair _ _ _ _ (assembleLine_hdr c p.length hp) (assembleLine_bytes p), frameBytes, List.map_append]

end Sys2Proof.Machine
end

section
/-! PROOFS of the family `40_construction.md`: the control transactions `NOP` (R100), `CFG` (R101) and `SRST` (R102), the
illegal and reserved words (R103), and a block that is never configured (R104). -/

namespace Sys2Proof.Machine

/-! ### A block that is never configured (R104) -/

/-- What a run from `s` to `t` emits, when every event of it is an `InvalidConfiguration` error (R202). -/
def EmitsOnlyConfigErrors (s t : State) : Prop :=
  ∃ es : List Event, t.events = s.events ++ es ∧ ∀ e ∈ es, ∃ n, e = .err ⟨1#2, n, 0#32⟩

theorem EmitsOnlyConfigErrors.of_events_eq {s t : State} (h : t.events = s.events) : EmitsOnlyConfigErrors s t :=
  ⟨[], by rw [h, List.append_nil], nofun⟩

theorem EmitsOnlyConfigErrors.trans {s u t : State} (hsu : EmitsOnlyConfigErrors s u) (hut : EmitsOnlyConfigErrors u t) :
    EmitsOnlyConfigErrors s t := by
  obtain ⟨es, hes, herr⟩ := hsu
  obtain ⟨fs, hfs, hfrr⟩ := hut
  refine ⟨es ++ fs, by rw [hfs, hes, List.append_assoc], fun e he => ?_⟩
  obtain he | he := List.mem_append.1 he
  · exact herr e he
  · exact hfrr e he

/-- In `UNCONF` no instruction reads the stream: all that is emitted is the error of a refused `CFG`, and an empty cursor
stays so, even at the `CFG` that constructs. -/
theorem Effect.unconf_output {i : Instr} {s t : State} (e : Effect i s t) (hm : s.mode = .unconf) (hc : CursorEmpty s) :
    CursorEmpty t ∧ EmitsOnlyConfigErrors s t := by
  have hrun : s.mode ≠ .run := by rw [hm]; nofun
  cases e with
  | same | illSet | constructed => exact ⟨hc, EmitsOnlyConfigErrors.of_events_eq rfl⟩
  | registersReset => exact ⟨by simp [CursorEmpty], EmitsOnlyConfigErrors.of_events_eq rfl⟩
  | configRefused n => exact ⟨hc, [.err ⟨1#2, n, 0#32⟩], rfl, fun e he => ⟨n, List.mem_singleton.1 he⟩⟩
  | headerByteHeld _ _ h => exact absurd h hrun
  | headerStored _ _ _ h => exact absurd h hrun
  | payloadByteHeld _ _ _ _ h => exact absurd h hrun
  | frameSent _ _ _ _ _ _ h => exact absurd h hrun
  | frameUnroutable _ _ _ _ _ _ h => exact absurd h hrun
  | streamEnded _ h => exact absurd h hrun

/-- Settles O39, by induction on the words: each is acted on in `UNCONF`, the mode after the words before it. -/
theorem unconfiguredBlockDoesNoOutput : Obligations.UnconfiguredBlockDoesNoOutput := by
  intro ws
  induction ws with
  | nil =>
    intro s t hc _ h
    obtain rfl : s = t := by simpa [transactAll] using h
    exact ⟨hc, EmitsOnlyConfigErrors.of_events_eq rfl⟩
  | cons w ws ih =>
    intro s t hc hmode h
    obtain ⟨u, hu, e⟩ := exec_effect (decodeWord w) s
    have hcons (vs : List TxnWord) : transactAll (w :: vs) s = transactAll vs u := transactAll_cons_next w vs s u hu
    obtain ⟨hcu, hsu⟩ := e.unconf_output (hmode 0 s rfl) hc
    rw [hcons] at h
    obtain ⟨hct, hut⟩ := ih u t hcu (fun k v hv => hmode (k + 1) v (by rwa [List.take_succ_cons, hcons])) h
    exact ⟨hct, hsu.trans hut⟩

/-! ### `NOP` (R100) -/

theorem exec_nop (arg : Byte) (s : State) : exec (.nop arg) s = .next s := rfl

/-- Settles O10: a word with `OP = 0` decodes to the `NOP` of its `ARG`. -/
theorem nopChangesNothing : Obligations.NopChangesNothing := by
  refine ⟨exec_nop, fun w s hop => ?_⟩
  rw [transact, ← txnWord_fields w, hop, decodeWord_nop, exec_nop]

/-! ### `CFG` (R101) -/

/-- The operand of `CFG` is zero-extended, so its value stands (R76). -/
theorem cfgCount_toNat (n : BitVec 4) : (cfgCount n).toNat = n.toNat :=
  BitVec.toNat_setWidth_of_le (by decide)

/-- Settles O11: the branch of `CFG` for a legal count in `UNCONF`. -/
theorem cfgBindsOneToEightDestinations : Obligations.CfgBindsOneToEightDestinations := by
  intro n s hm h1 h8
  have hlegal : 1 ≤ (cfgCount n).toNat ∧ (cfgCount n).toNat ≤ Config.nchMax := by
    rw [cfgCount_toNat]
    exact ⟨h1, h8⟩
  rw [exec, execCfg, if_neg (not_not.2 hm), if_pos hlegal, State.setCfgerr]

/-! ### `SRST` (R102) -/

theorem exec_srst (s : State) : exec .srst s = .next s.resetRegisters := rfl

/-- Settles O13: `SRST` is `S <- S0`, and `0x400` is its word. -/
theorem srstResetsEveryRegister : Obligations.SrstResetsEveryRegister := by
  intro s
  have hword : decodeWord 0x400#11 = .srst := decodeWord_srst
  exact ⟨exec_srst s, by rw [transact, hword]⟩

/-! ### Illegal and reserved words (R103) -/

/-- The words of the table's default row, by their fields (R77 (b), (c), (d)). -/
theorem isIllegalOther_iff (w : TxnWord) :
    isIllegalOther w = true ↔
      opField w = 2#3 ∧ argField w ≠ 0#8 ∨ opField w = 4#3 ∧ argField w ≠ 0#8 ∨ opField w = 3#3 ∧ argHigh w ≠ 0#4 := by
  rw [← txnWord_fields w, isIllegalOther_txnWord]
  simp [or_assoc]

theorem exec_reservedOp5 (arg : Byte) (s : State) : exec (.reservedOp5 arg) s = .next s.setIll := rfl

theorem exec_reservedOp6 (arg : Byte) (s : State) : exec (.reservedOp6 arg) s = .next s.setIll := rfl

theorem exec_reservedOp7 (arg : Byte) (s : State) : exec (.reservedOp7 arg) s = .next s.setIll := rfl

theorem exec_illegalOther (w : TxnWord) (s : State) : exec (.illegalOther w) s = .next s.setIll := rfl

theorem transact_of_isIllegalOther (w : TxnWord) (s : State) (h : isIllegalOther w = true) :
    transact w s = .next s.setIll := by
  rw [transact, decodeWord_illegalOther w h, exec_illegalOther]

/-- A word with a reserved `OP` (R77 (a)). -/
theorem transact_of_reservedOp (w : TxnWord) (s : State) (h : opField w = 5#3 ∨ opField w = 6#3 ∨ opField w = 7#3) :
    transact w s = .next s.setIll := by
  rw [transact, ← txnWord_fields w]
  obtain hop | hop | hop := h
  · rw [hop, decodeWord_reservedOp5, exec_reservedOp5]
  · rw [hop, decodeWord_reservedOp6, exec_reservedOp6]
  · rw [hop, decodeWord_reservedOp7, exec_reservedOp7]

/-! How many there are (R77). The numbers below 2048 are eight blocks of 256, one block for each `OP`, and each block is
counted by what its `OP` reserves of `ARG`. -/

/-- A word with no legal meaning (R77 (a) to (d)). -/
def isIllegalWord (w : TxnWord) : Bool := decide (5 ≤ (opField w).toNat) || isIllegalOther w

/-- Counting a range block by block. -/
theorem countP_range_mul (p : Nat → Bool) (m k : Nat) :
    (List.range (k * m)).countP p =
      ((List.range k).map fun i => (List.range m).countP fun a => p (i * m + a)).sum := by
  induction k with
  | zero => simp
  | succ k ih =>
    rw [Nat.succ_mul, List.range_add, List.countP_append, ih, List.countP_map, List.range_succ, List.map_append,
      List.sum_append, List.map_singleton, List.sum_singleton]
    rfl

/-- The word numbered `a` in block `op` (R74). -/
theorem ofNat_eq_txnWord (op a : Nat) (ha : a < 256) :
    BitVec.ofNat 11 (op * 256 + a) = txnWord (BitVec.ofNat 3 op) (BitVec.ofNat 8 a) := by
  apply BitVec.eq_of_toNat_eq
  rw [txnWord, toNat_append_byte]
  simp only [BitVec.toNat_ofNat]
  omega

/-- How many arguments make a word with the given `OP` illegal: all of them, all but 0, or all that have a reserved bit
of `CFG` set. -/
def illegalArgs (op : BitVec 3) : Nat :=
  if 5 ≤ op.toNat then 256 else if op = 2#3 ∨ op = 4#3 then 255 else if op = 3#3 then 240 else 0

/-- The bytes that are not 0, and those whose high half is not 0, are counted in sixteen rows of sixteen. -/
theorem countP_illegal_args (op : BitVec 3) :
    ((List.range 256).countP fun a => isIllegalWord (txnWord op (BitVec.ofNat 8 a))) = illegalArgs op := by
  have hzero : ((List.range 256).countP fun a => BitVec.ofNat 8 a != 0#8) = 255 := by
    rw [show 256 = 16 * 16 from rfl, countP_range_mul]
    decide
  have hhigh : ((List.range 256).countP fun a => (BitVec.ofNat 8 a).extractLsb' 4 4 != 0#4) = 240 := by
    rw [show 256 = 16 * 16 from rfl, countP_range_mul]
    decide
  simp only [isIllegalWord, isIllegalOther_txnWord, opField_txnWord]
  obtain rfl | rfl | rfl | rfl | rfl | rfl | rfl | rfl := op_cases op
  · simp [illegalArgs]
  · simp [illegalArgs]
  · simpa [illegalArgs] using hzero
  · simpa [illegalArgs] using hhigh
  · simpa [illegalArgs] using hzero
  · simp [illegalArgs]
  · simp [illegalArgs]
  · simp [illegalArgs]

theorem illegalWords_count : ((List.range 2048).filter fun n => isIllegalWord (BitVec.ofNat 11 n)).length = 1518 := by
  rw [← List.countP_eq_length_filter, show 2048 = 8 * 256 from rfl, countP_range_mul]
  have hblock (op : Nat) : ((List.range 256).countP fun a => isIllegalWord (BitVec.ofNat 11 (op * 256 + a))) =
      illegalArgs (BitVec.ofNat 3 op) := by
    rw [← countP_illegal_args]
    refine List.countP_congr fun a ha => ?_
    rw [ofNat_eq_txnWord op a (List.mem_range.1 ha)]
  simp only [hblock]
  decide

/-- Settles O14: by what the word's `OP` reserves, and the count block by block. -/
theorem illegalWordsOnlySetIll : Obligations.IllegalWordsOnlySetIll := by
  refine ⟨fun w s h => ?_, illegalWords_count, fun arg w s =>
    ⟨exec_reservedOp5 arg s, exec_reservedOp6 arg s, exec_reservedOp7 arg s, exec_illegalOther w s⟩⟩
  obtain h | h | h | h := h
  · exact transact_of_reservedOp w s (.inl h)
  · exact transact_of_reservedOp w s (.inr (.inl h))
  · exact transact_of_reservedOp w s (.inr (.inr h))
  · exact transact_of_isIllegalOther w s ((isIllegalOther_iff w).2 h)

end Sys2Proof.Machine
end

section
/-! PROOFS of the family `41_byte_stream.md`: what the destinations hold (R136, R143, R239), each `BYTE` in each branch of
R130 (R131–R138), and runs of frames and of `NOP` words (R139, R141, R142). -/

namespace Sys2Proof.Machine

/-! ### What the destinations hold (R236, R239)

`DeliveryInv` is followed through the two parts of an edge: the ports' own work, then the meaning of an accepted word. -/

/-- Either no chunk is on the port, or the open bytes and the pending beats are the last `Write`. -/
theorem deliveryInv_iff (s : State) :
    DeliveryInv s ↔
      s.pending = [] ∧ (destView s.portLog).held = [] ∧ (destView s.portLog).delivered.Sublist (writesOf s.events) ∨
      ∃ ws c rest, s.pending = beatsOf c rest ∧
        writesOf s.events = ws ++ [(c, (destView s.portLog).held ++ rest)] ∧
        (destView s.portLog).delivered.Sublist ws := by
  constructor
  · rintro ⟨hidle, hdrain⟩
    by_cases hp : s.pending = []
    · exact .inl ⟨hp, hidle hp⟩
    · exact .inr (hdrain hp)
  · rintro (⟨hp, hidle⟩ | ⟨ws, c, rest, hp, hdrain⟩)
    · exact ⟨fun _ => hidle, fun hne => absurd hp hne⟩
    · exact ⟨fun hnil => absurd (hp.symm.trans hnil) (beatsOf_ne_nil c rest), fun _ => ⟨ws, c, rest, hp, hdrain⟩⟩

/-- The chunks delivered are some of the `Write` events, while a chunk drains too. -/
theorem DeliveryInv.delivered_sublist {s : State} (h : DeliveryInv s) :
    (destView s.portLog).delivered.Sublist (writesOf s.events) := by
  obtain ⟨-, -, hsub⟩ | ⟨ws, c, rest, -, hw, hsub⟩ := (deliveryInv_iff s).1 h
  · exact hsub
  · rw [hw]
    exact hsub.trans (List.sublist_append_left _ _)

/-- A reset edge is sampled as the edge's signals and then the reset, which discards the open bytes (R239). -/
theorem destView_resetAtEdge (s : State) :
    destView s.resetAtEdge.portLog = ⟨(destView s.afterEdge.portLog).delivered, []⟩ := by
  rw [State.resetAtEdge_portLog, destView_append]
  rfl

/-- At an edge at which no beat transfers, the destination side takes nothing (R236). -/
theorem destView_afterEdge_of_no_transfer (s : State) (h : s.transfers = false) :
    destView s.afterEdge.portLog = destView s.portLog := by
  rw [State.afterEdge_portLog, destView_append, State.sampled, h, if_neg Bool.false_ne_true, List.append_nil,
    sees_strobes]

/-- The beat that transfers is the first pending one, and the destination side takes it (R236). -/
theorem destView_afterEdge_of_transfer (s : State) (b : Beat) (bs : List Beat) (hp : s.pending = b :: bs)
    (h : s.transfers = true) : destView s.afterEdge.portLog = (destView s.portLog).sees (.beat b) := by
  have hgap : s.gap = 0 := by
    by_contra hne
    rw [transfers_of_gap s hne] at h
    cases h
  have hbeat : s.dstBeat = some b := by rw [State.dstBeat, if_pos hgap, hp, List.head?_cons]
  rw [State.afterEdge_portLog, destView_append, State.sampled, h, if_pos rfl, hbeat, List.foldl_append, sees_strobes]
  rfl

/-- A beat that transfers moves its byte from the pending ones to the open ones; the last one closes the chunk, which is
then the whole `Write`. -/
theorem deliveryInv_afterEdge_of_transfer {s : State} (h : DeliveryInv s) (ht : s.transfers = true) :
    DeliveryInv s.afterEdge := by
  rw [deliveryInv_iff, State.afterEdge_events, State.afterEdge_pending, if_pos ht]
  obtain ⟨hp, -⟩ | ⟨ws, c, rest, hp, hw, hsub⟩ := (deliveryInv_iff s).1 h
  · rw [transfers_of_no_beat s hp] at ht
    cases ht
  · rw [hp, hw]
    match rest with
    | [] =>
      rw [destView_afterEdge_of_transfer s _ _ hp ht, List.append_nil]
      exact .inl ⟨rfl, rfl, hsub.append_right _⟩
    | [b] =>
      rw [destView_afterEdge_of_transfer s _ _ hp ht]
      exact .inl ⟨rfl, rfl, hsub.append_right _⟩
    | b :: b' :: p =>
      have hmoved : (destView s.portLog).held ++ b :: b' :: p = (destView s.portLog).held ++ [b] ++ b' :: p :=
        List.append_cons _ _ _
      rw [destView_afterEdge_of_transfer s _ _ hp ht, hmoved]
      exact .inr ⟨ws, c, b' :: p, rfl, rfl, hsub⟩

/-- The ports' own work keeps the deliveries. -/
theorem deliveryInv_afterEdge {s : State} (h : DeliveryInv s) : DeliveryInv s.afterEdge := by
  cases ht : s.transfers with
  | true => exact deliveryInv_afterEdge_of_transfer h ht
  | false =>
    rwa [DeliveryInv, destView_afterEdge_of_no_transfer s ht, State.afterEdge_events, State.afterEdge_pending,
      if_neg (by rw [ht]; exact Bool.false_ne_true)]

/-- A reset edge abandons the chunk on the port and keeps what has been delivered (R239). -/
theorem deliveryInv_resetAtEdge {s : State} (h : DeliveryInv s) : DeliveryInv s.resetAtEdge := by
  rw [deliveryInv_iff, destView_resetAtEdge]
  exact .inl ⟨rfl, rfl, (deliveryInv_afterEdge h).delivered_sublist⟩

/-- An instruction leaves the beats and the `Write` events alone, or it emits one `Write` and loads its beats (R136). -/
theorem Effect.writes {i : Instr} {s t : State} (e : Effect i s t) :
    t.pending = s.pending ∧ writesOf t.events = writesOf s.events ∨
    ∃ c p, t.pending = beatsOf c p ∧ writesOf t.events = writesOf s.events ++ [(c, p)] := by
  cases e with
  | frameSent c p => exact .inr ⟨c, p, rfl, writesOf_append _ _⟩
  | configRefused | frameUnroutable | streamEnded =>
    exact .inl ⟨rfl, (writesOf_append _ _).trans (List.append_nil _)⟩
  | _ => exact .inl ⟨rfl, rfl⟩

/-- A word acted on with no beat pending keeps the deliveries: a chunk it loads is wholly to come (R143). -/
theorem Effect.deliveryInv {i : Instr} {s t : State} (e : Effect i s t) (hp : s.pending = []) (h : DeliveryInv s) :
    DeliveryInv t := by
  obtain ⟨hheld, hsub⟩ := h.1 hp
  obtain ⟨-, hlog, -⟩ := e.ports_frame
  rw [deliveryInv_iff, hlog, hheld]
  obtain ⟨hpend, hw⟩ | ⟨c, p, hpend, hw⟩ := e.writes
  · exact .inl ⟨hpend.trans hp, rfl, hw ▸ hsub⟩
  · exact .inr ⟨_, c, p, hpend, hw, hsub⟩

/-- Settles O54: by the three forms of an edge, of which each keeps the deliveries. -/
theorem stepKeepsTheDeliveries : Obligations.StepKeepsTheDeliveries := by
  intro s t h hs
  obtain ⟨-, rfl⟩ | ⟨-, -, rfl⟩ | ⟨-, -, hp, e⟩ := step_effect s t hs
  · exact deliveryInv_resetAtEdge h
  · exact deliveryInv_afterEdge h
  · refine e.deliveryInv ?_ (deliveryInv_afterEdge h)
    rw [State.afterEdge_pending, transfers_of_no_beat s hp, hp]
    rfl

/-! ### Header bytes (R131, R132) -/

/-- Settles O16: the byte is held at its place in `HBUF` (R25). -/
theorem byteHoldsAHeaderByte : Obligations.ByteHoldsAHeaderByte := by
  intro b s hm hp hc
  refine ⟨setHbufByte s.hcnt.toNat b s.hbuf, ?_, fun k hk => hbufByte_setHbufByte _ k b s.hbuf hc hk⟩
  rw [execByte_awaitingHeader b s hm hp, s.headerStep_hold b hc, State.holdHeaderByte]

/-- Settles O17: `CHAN` and `LEN` are the fields that `HBUF` and the byte hold. -/
theorem fifthHeaderByteStoresTheHeader : Obligations.FifthHeaderByteStoresTheHeader :=
  execByte_fifthHeaderByte

/-! ### Completing a frame whose payload is held (R135–R138) -/

section
variable (s : State)

theorem State.complete_bound (hb : s.chan.toNat < s.ndest.toNat) (hl : s.len.toNat ≤ s.pbuf.length) :
    s.complete = { s with
      pbuf := [], chan := 0#8, len := 0#32, rem := 0#32, phase := .header
      events := s.events ++ [.write (s.chan.extractLsb' 0 3) (s.pbuf.take s.len.toNat)]
      pending := beatsOf (s.chan.extractLsb' 0 3) (s.pbuf.take s.len.toNat), gap := 0 } := by
  rw [s.complete_of_routable (s.routable_iff.2 hb), s.memRead_held _ hl, if_pos hl]

theorem State.complete_unbound (hb : s.ndest.toNat ≤ s.chan.toNat) :
    s.complete = { s with
      pbuf := [], chan := 0#8, len := 0#32, rem := 0#32, phase := .header
      events := s.events ++ [.err ⟨2#2, s.chan, s.len⟩], errOut := some ⟨2#2, s.chan, s.len⟩ } :=
  s.complete_of_not_routable fun hr => absurd (s.routable_iff.1 hr) (Nat.not_lt.2 hb)

end

/-- Settles O20: a payload to come is awaited; the empty frame completes with nothing to read of the buffer. -/
theorem frameHeaderIsStoredOrCompletes : Obligations.FrameHeaderIsStoredOrCompletes := by
  intro c l s hm hp
  rw [execFrameHeader_awaitingHeader c l s hm hp, State.headerComplete_next]
  by_cases hl : l = 0#32
  · subst hl
    rw [if_pos rfl, if_neg (not_not.2 rfl)]
    by_cases hb : c.toNat < s.ndest.toNat
    · rw [if_pos hb, State.complete_bound (s.storeHeader c 0#32) hb (Nat.zero_le _)]
      rfl
    · rw [if_neg hb, State.complete_unbound (s.storeHeader c 0#32) (Nat.not_lt.1 hb)]
      rfl
  · rw [if_neg hl, if_pos hl, State.storeHeader]

/-- Settles O18: the fifth byte runs the decoded header, and that header has no payload to come. -/
theorem emptyFrameCompletesAtItsHeader : Obligations.EmptyFrameCompletesAtItsHeader := by
  intro b s hm hp hc hl
  have hlen : hbufLength s.hbuf b = 0#32 := hl
  rw [fifthHeaderByteRunsTheDecodedHeader b s hm hp hc, decodeHeader_append_byte, hlen,
    frameHeaderIsStoredOrCompletes _ _ s hm hp, if_neg (not_not.2 rfl)]
  rfl

/-! ### Payload bytes (R134) -/

/-- Settles O23: a byte that is not the last is held, at the end of the buffer by (I5). -/
theorem payloadByteIsAppended : Obligations.PayloadByteIsAppended := by
  intro b s hm hp hr hl
  have hmore : s.rem ≠ 1#32 := fun h => by simp [h] at hr
  rw [execByte_awaitingPayload b s hm hp, s.payloadStep_more b hmore, s.holdPayloadByte_append b hl]

/-- The last payload byte is appended and the frame completes. -/
theorem execByte_lastPayloadByte (b : Byte) (s : State) (hm : s.mode = .run) (hp : s.phase = .payload)
    (hr : s.rem = 1#32) (hl : s.pbuf.length + 1 = s.len.toNat) :
    exec (.byte b) s = .next { s with pbuf := s.pbuf ++ [b], rem := 0#32 }.complete := by
  have hheld : s.pbuf.length + s.rem.toNat = s.len.toNat := by
    rw [hr]
    exact hl
  rw [execByte_awaitingPayload b s hm hp, s.payloadStep_last b hr, s.holdPayloadByte_append b hheld, hr]
  rfl

/-- Settles O25: with its last byte the buffer holds all `LEN` bytes, and the dispatch sends them. -/
theorem lastPayloadByteDispatchesTheFrame : Obligations.LastPayloadByteDispatchesTheFrame := by
  intro b s hm hp hr hl hb
  have hwhole : (s.pbuf ++ [b]).length = s.len.toNat := by rw [List.length_append, List.length_singleton, hl]
  rw [execByte_lastPayloadByte b s hm hp hr hl,
    State.complete_bound { s with pbuf := s.pbuf ++ [b], rem := 0#32 } hb hwhole.ge]
  simp only [List.take_of_length_le hwhole.le]

/-- Settles O26: the frame completes, and its channel is bound to no destination. -/
theorem lastPayloadByteReportsUnroutable : Obligations.LastPayloadByteReportsUnroutable := by
  intro b s hm hp hr hl hb
  rw [execByte_lastPayloadByte b s hm hp hr hl,
    State.complete_unbound { s with pbuf := s.pbuf ++ [b], rem := 0#32 } hb]

/-! ### Runs of frames (R139, R142) -/

/-- `HBUF` and the last byte of a header hold the header's length (R70, R132). -/
theorem hbufLength_lengthBytes (c : Byte) (l : Len) :
    hbufLength (c ++ l.extractLsb' 24 8 ++ l.extractLsb' 16 8 ++ l.extractLsb' 8 8) (l.extractLsb' 0 8) = l := by
  rw [← headerLength_append_byte]
  change headerLength (headerOfBytes _ _ _ _ _) = l
  rw [headerOfBytes_eq_append, be32_lengthBytes, headerLength_append]

/-- The five `BYTE` words of a header store it, and complete the frame if it has no payload (R131–R133). -/
theorem headerBytes_stored (c : Byte) (l : Len) (s : State) (hm : s.mode = .run) (hp : s.phase = .header)
    (hc : s.hcnt = 0#3) :
    transactAll ((headerBytes c l).map byteWord) s =
      .next (if l = 0#32 then (s.storeHeader c l).complete else s.storeHeader c l) := by
  have hfour := holdHeaderBytes c (l.extractLsb' 24 8) (l.extractLsb' 16 8) (l.extractLsb' 8 8) s hm hp hc
  have hfifth := execByte_awaitingHeader (l.extractLsb' 0 8)
    { s with
      hcnt := 4#3, hbuf := c ++ l.extractLsb' 24 8 ++ l.extractLsb' 16 8 ++ l.extractLsb' 8 8 } hm hp
  rw [State.headerStep_complete _ _ (le_refl 4), hbufChannel_of_bytes, hbufLength_lengthBytes,
    State.headerComplete_next, ← transact_byteWord] at hfifth
  exact (transactAll_append _ [byteWord (l.extractLsb' 0 8)] _ _ hfour).trans (transactAll_cons_next _ [] _ _ hfifth)

/-- The cursor that holds the whole frame `(c, p)`, at its completion (R134). -/
def State.holdFrame (c : Byte) (p : List Byte) (s : State) : State :=
  { s.storeHeader c (BitVec.ofNat 32 p.length) with pbuf := p, rem := 0#32 }

/-- The words of a frame, from an empty cursor, complete it with its payload in the buffer (R134). -/
theorem frameBytes_complete (c : Byte) (p : List Byte) (s : State) (hm : s.mode = .run) (hc : CursorEmpty s)
    (hlen : p.length < 2 ^ 32) :
    transactAll ((frameBytes c p).map byteWord) s = .next (s.holdFrame c p).complete := by
  obtain ⟨hp, hhcnt, -, -, -, -, hpbuf⟩ := hc
  have hcount : (BitVec.ofNat 32 p.length).toNat = p.length := Nat.mod_eq_of_lt hlen
  rw [frameBytes, List.map_append, transactAll_append _ _ _ _ (headerBytes_stored c _ s hm hp hhcnt)]
  cases p with
  | nil =>
    rw [State.holdFrame, State.storeHeader, hpbuf]
    rfl
  | cons b p =>
    have hne : BitVec.ofNat 32 (b :: p).length ≠ 0#32 := fun h0 => by rw [h0] at hcount; cases hcount
    have hheld : s.pbuf.length + (BitVec.ofNat 32 (b :: p).length).toNat = (BitVec.ofNat 32 (b :: p).length).toNat := by
      rw [hpbuf, List.length_nil, Nat.zero_add]
    rw [if_neg hne, payloadBytes_complete (b :: p) (s.storeHeader c (BitVec.ofNat 32 (b :: p).length)) hm rfl hcount
      hheld (List.cons_ne_nil b p), State.storeHeader_pbuf, hpbuf, List.nil_append, State.holdFrame]

/-- The one event of a frame, with `n` destinations bound (R135–R137). -/
def frameEvent (n : BitVec 4) (f : Byte × List Byte) : Event :=
  if f.1.toNat < n.toNat then .write (f.1.extractLsb' 0 3) f.2 else .err ⟨2#2, f.1, BitVec.ofNat 32 f.2.length⟩

/-- From an empty cursor in `RUN`, a frame's words emit its event and leave nothing else but the ports changed. -/
theorem frameBytes_dispatched (f : Byte × List Byte) (s : State) (hm : s.mode = .run) (hc : CursorEmpty s)
    (hlen : f.2.length < 2 ^ 32) :
    ∃ pend err g, transactAll ((frameBytes f.1 f.2).map byteWord) s =
      .next { s with pending := pend, errOut := err, gap := g, events := s.events ++ [frameEvent s.ndest f] } := by
  have hcount : (BitVec.ofNat 32 f.2.length).toNat = f.2.length := Nat.mod_eq_of_lt hlen
  have hcomplete := frameBytes_complete f.1 f.2 s hm hc hlen
  obtain ⟨hphase, hhcnt, hhbuf, hchan, hlen0, hrem, hpbuf⟩ := hc
  by_cases hb : f.1.toNat < s.ndest.toNat
  · refine ⟨beatsOf (f.1.extractLsb' 0 3) f.2, s.errOut, 0, ?_⟩
    rw [hcomplete, (s.holdFrame f.1 f.2).complete_bound hb hcount.le, frameEvent, if_pos hb]
    simp only [State.holdFrame, State.storeHeader, hcount, List.take_length, hphase, hhcnt, hhbuf, hchan, hlen0,
      hrem, hpbuf]
  · refine ⟨s.pending, some ⟨2#2, f.1, BitVec.ofNat 32 f.2.length⟩, s.gap, ?_⟩
    rw [hcomplete, (s.holdFrame f.1 f.2).complete_unbound (Nat.not_lt.1 hb), frameEvent, if_neg hb]
    simp only [State.holdFrame, State.storeHeader, hphase, hhcnt, hhbuf, hchan, hlen0, hrem, hpbuf]

/-- Settles O27, by induction on the frames: each finds the registers as the first one did. -/
theorem framesAreDispatchedInStreamOrder : Obligations.FramesAreDispatchedInStreamOrder := by
  intro frames
  induction frames with
  | nil =>
    intro s _ _ _
    exact ⟨s.pending, s.errOut, s.gap, by simp [transactAll]⟩
  | cons f frames ih =>
    intro s hm hc hlen
    obtain ⟨pend₁, err₁, g₁, hfirst⟩ := frameBytes_dispatched f s hm hc (hlen f List.mem_cons_self)
    obtain ⟨pend, err, g, hrest⟩ :=
      ih { s with pending := pend₁, errOut := err₁, gap := g₁, events := s.events ++ [frameEvent s.ndest f] } hm hc
        fun f' hf' => hlen f' (List.mem_cons_of_mem f hf')
    refine ⟨pend, err, g, ?_⟩
    rw [List.flatMap_cons, transactAll_append _ _ _ _ hfirst, hrest]
    simp only [List.append_assoc]
    rfl

/-- The word of `CFG N`, whose reserved bits are 0 (R75). -/
theorem decodeWord_cfg_zeroExtend (n : BitVec 4) : decodeWord (txnWord 3#3 (n.zeroExtend 8)) = .cfg n := by
  have happ : n.zeroExtend 8 = 0#4 ++ n := BitVec.setWidth_eq_append (by decide)
  rw [happ, decodeWord_cfg]

/-- Settles O28: `CFG N` constructs with an empty cursor, and of the frames that follow every one is routable. -/
theorem roundTrip : Obligations.RoundTrip := by
  intro n frames h1 h8 hframes
  have hcfg : transact (txnWord 3#3 (n.zeroExtend 8)) State.reset =
      .next { State.reset with mode := .run, ndest := n, cfgerr := false } := by
    rw [transact, decodeWord_cfg_zeroExtend, cfgBindsOneToEightDestinations n _ rfl h1 h8]
  obtain ⟨pend, err, g, hrun⟩ :=
    framesAreDispatchedInStreamOrder frames { State.reset with mode := .run, ndest := n, cfgerr := false } rfl
      ⟨rfl, rfl, rfl, rfl, rfl, rfl, rfl⟩ fun f hf => Nat.lt_of_le_pred (by decide) (hframes f hf).2
  refine ⟨_, (transactAll_cons_next _ _ _ _ hcfg).trans hrun, ?_, rfl, rfl, rfl⟩
  exact List.map_congr_left fun f hf => if_pos (hframes f hf).1

/-! ### `NOP` words (R141) -/

/-- Settles O29, by induction on the words: a `NOP` leaves the state as it is, any other word is kept. -/
theorem nopsAreInvisible : Obligations.NopsAreInvisible := by
  intro ws
  induction ws with
  | nil => exact fun _ => rfl
  | cons w ws ih =>
    intro s
    obtain ⟨t, ht⟩ : ∃ t, transact w s = .next t := exec_next _ s
    rw [transactAll_cons_next w ws s t ht]
    by_cases hop : opField w = 0#3
    · obtain rfl : s = t := by rwa [nopChangesNothing.2 w s hop, Host.Outcome.next.injEq] at ht
      rw [List.filter_cons_of_neg (by simp [hop]), ih s]
    · rw [List.filter_cons_of_pos (by simp [hop]), transactAll_cons_next w _ s t ht, ih t]

end Sys2Proof.Machine
end

section
/-! PROOFS of the family `42_end_of_stream.md`: what `EOS` does (R180–R182), that every bound destination is told once
(R183), and how the block goes on after that (R184). -/

namespace Sys2Proof.Machine

/-! ### `EOS` (R180–R182) -/

/-- In `RUN` the mask of the bound destinations is sent, the partial frame dropped and the end reached (R180). -/
theorem exec_eos_of_run (s : State) (hm : s.mode = .run) :
    exec .eos s = .next { (s.emit (.endTo (lowmask8 s.ndest))).discardPartial with mode := .ended } := by
  rw [exec, execEos, if_neg (not_not.2 hm)]

theorem exec_eos_of_not_run (s : State) (hm : s.mode ≠ .run) : exec .eos s = .next s.setIll := by
  rw [exec, execEos, if_pos hm]

/-- Settles O31: the mask is `lowmask8(NDEST)`, whose bits are those of the bound destinations, and `0x200` is `EOS`. -/
theorem eosTellsEveryBoundDestination : Obligations.EosTellsEveryBoundDestination := by
  intro s
  have hword : decodeWord 0x200#11 = .eos := decodeWord_eos
  refine ⟨fun hm => ⟨lowmask8 s.ndest, lowmask8_bit s.ndest, ?_⟩, exec_eos_of_not_run s, by rw [transact, hword]⟩
  rw [exec_eos_of_run s hm, State.discardPartial, State.emit]

/-! ### Every bound destination is told once (R183) -/

/-- Destination `c` has been told `n` times, and once more where the stream has ended and `c` is bound. -/
def ToldOnceMore (c n : Nat) (s : State) : Prop :=
  timesTold c s.events = n + if s.mode = .ended ∧ c < s.ndest.toNat then 1 else 0

theorem toldOnceMore_of_not_ended {c n : Nat} {s : State} (hm : s.mode ≠ .ended) :
    ToldOnceMore c n s ↔ timesTold c s.events = n := by
  rw [ToldOnceMore, if_neg fun h => hm h.1, Nat.add_zero]

theorem timesTold_append_err (c : Nat) (es : List Event) (e : ErrWord) :
    timesTold c (es ++ [.err e]) = timesTold c es := timesTold_append c es [.err e]

theorem timesTold_append_write (c : Nat) (es : List Event) (d : BitVec 3) (p : List Byte) :
    timesTold c (es ++ [.write d p]) = timesTold c es := timesTold_append c es [.write d p]

/-- An end event tells exactly the destinations it counts as bound (R181). -/
theorem timesTold_append_endTo (c : Nat) (hc : c < 8) (es : List Event) (k : BitVec 4) :
    timesTold c (es ++ [.endTo (lowmask8 k)]) = timesTold c es + if c < k.toNat then 1 else 0 := by
  rw [timesTold_append]
  simp [timesTold, lowmask8_bit k c hc]

/-- Only `EOS` tells a destination, and it leads to `ENDED`; only `SRST` leads out of it. -/
theorem Effect.toldOnceMore {i : Instr} {s t : State} {c n : Nat} (e : Effect i s t) (hi : i ≠ .srst) (hc : c < 8)
    (h : ToldOnceMore c n s) : ToldOnceMore c n t := by
  cases e with
  | registersReset hs => exact absurd hs hi
  | constructed _ _ hm =>
    rw [toldOnceMore_of_not_ended (by rw [hm]; nofun)] at h
    exact (toldOnceMore_of_not_ended (by nofun)).2 h
  | streamEnded _ hm =>
    rw [toldOnceMore_of_not_ended (by rw [hm]; nofun)] at h
    simp only [ToldOnceMore, timesTold_append_endTo c hc, h, true_and]
  | configRefused | frameUnroutable => exact (timesTold_append_err c _ _).trans h
  | frameSent => exact (timesTold_append_write c _ _ _).trans h
  | same | illSet | headerByteHeld | headerStored | payloadByteHeld => exact h

/-- Settles O32: no word but `SRST` breaks `ToldOnceMore`, which before the end says that the count stands. -/
theorem endIsSentOncePerInstance : Obligations.EndIsSentOncePerInstance := by
  intro ws s t hm hws h c hc
  have hstart : ToldOnceMore c (timesTold c s.events) s := (toldOnceMore_of_not_ended hm).2 rfl
  exact transactAll_invariant (ToldOnceMore c (timesTold c s.events)) ws s t hstart
    (fun w hw u v hu hv => (effect_of_exec _ u v hv).toldOnceMore (hws w hw) hc hu) h

/-! ### After the end (R184) -/

/-- In `ENDED` every instruction but `NOP` and `SRST` is a protocol violation (R205). -/
theorem Effect.of_ended {i : Instr} {s t : State} (e : Effect i s t) (hm : s.mode = .ended) (hi : i ≠ .srst)
    (hnop : ∀ arg, i ≠ .nop arg) : t = { s with ill := true } := by
  have hrun : s.mode ≠ .run := by rw [hm]; nofun
  have hunconf : s.mode ≠ .unconf := by rw [hm]; nofun
  cases e with
  | illSet => rfl
  | same arg ha => exact absurd ha (hnop arg)
  | registersReset hs => exact absurd hs hi
  | constructed _ _ h => exact absurd h hunconf
  | configRefused _ _ _ h => exact absurd h hunconf
  | headerByteHeld _ _ h => exact absurd h hrun
  | headerStored _ _ _ h => exact absurd h hrun
  | payloadByteHeld _ _ _ _ h => exact absurd h hrun
  | frameSent _ _ _ _ _ _ h => exact absurd h hrun
  | frameUnroutable _ _ _ _ _ _ h => exact absurd h hrun
  | streamEnded _ h => exact absurd h hrun

/-- Only the words with `OP = 0` decode to a `NOP` (R75). -/
theorem opField_of_decodeWord_nop {w : TxnWord} {arg : Byte} (h : decodeWord w = .nop arg) : opField w = 0#3 := by
  have hw : encode (decodeWord w) = .word w := (encodeOfDecodeIsTheWord (.word w)).2
  rw [h, encode, Encoded.word.injEq] at hw
  rw [← hw, opField_txnWord]

/-- One word that is no `SRST`, in `ENDED`. -/
theorem transact_of_ended (w : TxnWord) (s : State) (hm : s.mode = .ended) (hw : decodeWord w ≠ .srst) :
    transact w s = .next { s with ill := s.ill || opField w != 0#3 } := by
  by_cases hop : opField w = 0#3
  · rw [nopChangesNothing.2 w s hop, hop, bne_self_eq_false, Bool.or_false]
  · obtain ⟨t, ht, e⟩ := exec_effect (decodeWord w) s
    rw [transact, ht, e.of_ended hm hw fun _ h => hop (opField_of_decodeWord_nop h), bne_iff_ne.2 hop, Bool.or_true]

/-- Any words but `SRST`, in `ENDED`: each is acted on in the mode that the one before it left. -/
theorem transactAll_of_ended (ws : List TxnWord) (s : State) (hm : s.mode = .ended)
    (hws : ∀ w ∈ ws, decodeWord w ≠ .srst) :
    transactAll ws s = .next { s with ill := s.ill || ws.any fun w => opField w != 0#3 } := by
  induction ws generalizing s with
  | nil => rw [transactAll, List.any_nil, Bool.or_false]
  | cons w ws ih =>
    obtain ⟨hw, hws⟩ := List.forall_mem_cons.1 hws
    rw [transactAll_cons_next _ _ _ _ (transact_of_ended w s hm hw),
      ih { s with ill := s.ill || opField w != 0#3 } hm hws, List.any_cons, Bool.or_assoc]

/-- Settles O33: the run stays in `ENDED`, and both resets load `UNCONF`. -/
theorem endedLastsUntilReset : Obligations.EndedLastsUntilReset := by
  intro s hm
  exact ⟨fun ws => transactAll_of_ended ws s hm,
    ⟨s.resetRegisters, exec_srst s, s.resetRegisters_mode⟩,
    fun hr => ⟨s.resetAtEdge, step_of_reset s hr, s.resetAtEdge_mode⟩⟩

end Sys2Proof.Machine
end

section
/-! PROOFS of the family `60_exceptions.md`: the error of a refused `CFG` (R202), the protocol violations (R205), and how
many events a transaction emits (R207). -/

namespace Sys2Proof.Machine

/-! ### The events of a transaction (R207) -/

/-- The events that R207 leaves open to each instruction; the frame header is taken as `BYTE` (log entry 5). -/
def MayEmit : Instr → Event → Prop
  | .byte _, e | .frameHeader _ _, e => (∃ c p, e = .write c p) ∨ ∃ w, e = .err w
  | .eos, e => ∃ m, e = .endTo m
  | .cfg _, e => ∃ w, e = .err w
  | _, _ => False

theorem mayEmit_of_carriesStream {i : Instr} {e : Event} (hi : carriesStream i = true)
    (he : (∃ c p, e = .write c p) ∨ ∃ w, e = .err w) : MayEmit i e := by
  cases i with
  | byte | frameHeader => exact he
  | _ => cases hi

/-- An instruction emits nothing, or it emits one event of a kind open to it and leaves `ILL` alone. -/
theorem Effect.emits {i : Instr} {s t : State} (h : Effect i s t) :
    t.events = s.events ∨ t.ill = s.ill ∧ ∃ e, MayEmit i e ∧ t.events = s.events ++ [e] := by
  cases h with
  | configRefused _ _ hi =>
    subst hi
    exact .inr ⟨rfl, _, ⟨_, rfl⟩, rfl⟩
  | frameSent c p _ _ _ hi => exact .inr ⟨rfl, _, mayEmit_of_carriesStream hi (.inl ⟨c, p, rfl⟩), rfl⟩
  | frameUnroutable _ _ _ _ _ hi => exact .inr ⟨rfl, _, mayEmit_of_carriesStream hi (.inr ⟨_, rfl⟩), rfl⟩
  | streamEnded hi =>
    subst hi
    exact .inr ⟨rfl, _, ⟨_, rfl⟩, rfl⟩
  | same | illSet | registersReset | constructed | headerByteHeld | headerStored | payloadByteHeld => exact .inl rfl

/-- Settles O35: by `Effect.emits`, an event is of its instruction's kind, and it excludes that `ILL` is set. -/
theorem atMostOneEventPerTransaction : Obligations.AtMostOneEventPerTransaction := by
  intro i s t h
  obtain hsame | ⟨hill, e, he, hev⟩ := (effect_of_exec i s t h).emits
  · exact ⟨.inl hsame, fun _ _ => hsame⟩
  · refine ⟨.inr ?_, fun hs ht => ?_⟩
    · rw [hev]
      cases i with
      | byte | frameHeader =>
        obtain ⟨c, p, rfl⟩ | ⟨w, rfl⟩ := he
        · exact .inl ⟨c, p, rfl⟩
        · exact .inr ⟨w, rfl⟩
      | eos | cfg =>
        obtain ⟨_, rfl⟩ := he
        exact ⟨_, rfl⟩
      | _ => exact he
    · rw [hill, hs] at ht
      cases ht

/-! ### A refused `CFG` (R202) -/

/-- Settles O12: a count that is not 1 to 8 takes the branch of `CFG` that raises the error. -/
theorem cfgRaisesInvalidConfiguration : Obligations.CfgRaisesInvalidConfiguration := by
  intro n s hm hn
  have hillegal : ¬ (1 ≤ (cfgCount n).toNat ∧ (cfgCount n).toNat ≤ Config.nchMax) := by
    rw [cfgCount_toNat, Config.nchMax]
    omega
  rw [exec, execCfg, if_neg (not_not.2 hm), if_neg hillegal]
  rfl

/-! ### The protocol violations (R205) -/

theorem exec_cfg_of_not_unconf (n : BitVec 4) (s : State) (hm : s.mode ≠ .unconf) :
    exec (.cfg n) s = .next s.setIll := by
  rw [exec, execCfg, if_pos hm]

theorem exec_byte_of_not_run (b : Byte) (s : State) (hm : s.mode ≠ .run) : exec (.byte b) s = .next s.setIll := by
  rw [exec, execByte, if_pos hm]

/-- The values of `OP` from 5 on are the three reserved ones (R75). -/
theorem reservedOp_of_le (op : BitVec 3) (h : 5 ≤ op.toNat) : op = 5#3 ∨ op = 6#3 ∨ op = 7#3 := by
  bv_omega

/-- Settles O15: one lemma for each kind of violation, each an answer of `State.setIll`. -/
theorem protocolViolationsOnlySetIll : Obligations.ProtocolViolationsOnlySetIll := by
  refine ⟨fun w s h => ?_, exec_cfg_of_not_unconf, exec_byte_of_not_run, exec_eos_of_not_run⟩
  obtain hop | hother := h
  · exact transact_of_reservedOp w s (reservedOp_of_le _ hop)
  · exact transact_of_isIllegalOther w s hother

end Sys2Proof.Machine
end

section
/-! PROOFS of the family `70_reset_and_hazards.md`: the reset edge (R231), the acceptance of words (R235), the drain of a
chunk (R236, R238), the strobes (R237), and what every edge keeps of the ports. -/

namespace Sys2Proof.Machine

/-! ### What an instruction loads on the ports (R236, R237) -/

/-- An instruction loads one port at most: the beats of a chunk, the error strobe or the end strobe, each beside its
event. -/
inductive PortLoad (s t : State) : Prop where
  /-- The port registers stand. -/
  | nothing (hpending : t.pending = s.pending) (herr : t.errOut = s.errOut) (hend : t.endOut = s.endOut)
  /-- A chunk for a bound destination, with the cursor cleared (R136, R138). -/
  | chunk (c : BitVec 3) (p : List Byte) (hpending : t.pending = beatsOf c p) (herr : t.errOut = s.errOut)
      (hend : t.endOut = s.endOut) (hmode : t.mode = .run) (hbound : c.toNat < t.ndest.toNat)
      (hphase : t.phase = .header) (hchan : t.chan = 0#8) (hlen : t.len = 0#32) (hrem : t.rem = 0#32)
  /-- An error (R201). -/
  | error (e : ErrWord) (hpending : t.pending = s.pending) (herr : t.errOut = some e) (hend : t.endOut = s.endOut)
      (hevents : t.events = s.events ++ [.err e])
  /-- The end of the stream, told to the bound destinations (R180, R181). -/
  | streamEnd (hpending : t.pending = s.pending) (herr : t.errOut = s.errOut)
      (hend : t.endOut = some (lowmask8 t.ndest)) (hmode : t.mode = .ended)
      (hevents : t.events = s.events ++ [.endTo (lowmask8 t.ndest)])

theorem Effect.portLoad {i : Instr} {s t : State} (e : Effect i s t) : PortLoad s t := by
  cases e with
  | frameSent c p _ _ _ _ hm hbound => exact .chunk c p rfl rfl rfl hm hbound rfl rfl rfl rfl
  | configRefused | frameUnroutable => exact .error _ rfl rfl rfl rfl
  | streamEnded => exact .streamEnd rfl rfl rfl rfl rfl
  | same | illSet | registersReset | constructed | headerByteHeld | headerStored | payloadByteHeld =>
    exact .nothing rfl rfl rfl

section
variable {s t : State}

/-- An error strobe comes with its event (R237). -/
theorem PortLoad.errOut_event (l : PortLoad s t) (hs : s.errOut = none) (ht : t.errOut ≠ none) :
    ∃ e, t.errOut = some e ∧ t.events = s.events ++ [.err e] := by
  cases l with
  | error e _ herr _ hevents => exact ⟨e, herr, hevents⟩
  | nothing _ herr | chunk _ _ _ herr | streamEnd _ herr => exact absurd (herr.trans hs) ht

/-- An end strobe comes with its event (R237). -/
theorem PortLoad.endOut_event (l : PortLoad s t) (hs : s.endOut = none) (ht : t.endOut ≠ none) :
    ∃ m, t.endOut = some m ∧ t.events = s.events ++ [.endTo m] := by
  cases l with
  | streamEnd _ _ hend _ hevents => exact ⟨_, hend, hevents⟩
  | nothing _ _ hend | chunk _ _ _ _ hend | error _ _ _ hend => exact absurd (hend.trans hs) ht

/-- A word that leaves a chunk to drain leaves no header pending (R138, R241). -/
theorem PortLoad.cursor_of_drain (l : PortLoad s t) (hs : s.pending = []) (ht : t.pending ≠ []) :
    t.phase = .header ∧ t.chan = 0#8 ∧ t.len = 0#32 ∧ t.rem = 0#32 := by
  cases l with
  | chunk _ _ _ _ _ _ _ hphase hchan hlen hrem => exact ⟨hphase, hchan, hlen, hrem⟩
  | nothing hpending | error _ hpending | streamEnd hpending => exact absurd (hpending.trans hs) ht

/-- With no beat pending the first two clauses of `PortInv` are empty; with `rst_n` high so is the last. -/
theorem portInv_of_no_beat (hp : t.pending = []) (hr : t.rstHigh = true) (hone : t.errOut = none ∨ t.endOut = none)
    (hend : t.endOut = none ∨ t.endOut = some (lowmask8 t.ndest) ∧ t.mode = .ended) : PortInv t :=
  ⟨fun h => absurd hp h, fun b hb => absurd (hp ▸ hb) List.not_mem_nil, hone, hend,
    fun hlow => by rw [hr] at hlow; cases hlow⟩

/-- From ports at rest, what an instruction loads meets the port invariants. -/
theorem PortLoad.portInv (l : PortLoad s t) (hp : s.pending = []) (herr₀ : s.errOut = none) (hend₀ : s.endOut = none)
    (hr : t.rstHigh = true) : PortInv t := by
  cases l with
  | nothing hpending herr hend =>
    exact portInv_of_no_beat (hpending.trans hp) hr (.inl (herr.trans herr₀)) (.inl (hend.trans hend₀))
  | error e hpending _ hend =>
    exact portInv_of_no_beat (hpending.trans hp) hr (.inr (hend.trans hend₀)) (.inl (hend.trans hend₀))
  | streamEnd hpending herr hend hmode =>
    exact portInv_of_no_beat (hpending.trans hp) hr (.inl (herr.trans herr₀)) (.inr ⟨hend, hmode⟩)
  | chunk c p hpending herr hend hmode hbound =>
    refine ⟨fun _ => ⟨hmode, herr.trans herr₀, hend.trans hend₀⟩, fun b hb => ?_, .inl (herr.trans herr₀),
      .inl (hend.trans hend₀), fun hlow => ?_⟩
    · rw [beatsOf_chan c p b (hpending ▸ hb)]
      exact hbound
    · rw [hr] at hlow
      cases hlow

end

/-! ### The ports' own work at an edge (R235–R237) -/

section
variable (s : State)

/-- An edge leaves the beats pending that were, or all but the first (R236). -/
theorem State.afterEdge_pending_subset : s.afterEdge.pending ⊆ s.pending := by
  rw [State.afterEdge_pending]
  split
  · exact List.tail_subset _
  · exact List.Subset.refl _

/-- Where no beat transfers, the strobes are sampled and fall, and a beat that is awaited comes one cycle nearer. -/
theorem State.afterEdge_of_no_transfer (h : s.transfers = false) :
    s.afterEdge =
      { s with
        inputs := s.inputs.tail, rstHigh := true, errOut := none, endOut := none, gap := s.gap - 1
        portLog := s.portLog ++ (s.errOut.map PortSignal.errStrobe).toList ++
          (s.endOut.map PortSignal.endStrobe).toList } := by
  simp [State.afterEdge, State.sampled, h, beatFollows_of_no_transfer s h]

/-- With no strobe up, the record stands too. -/
theorem State.afterEdge_of_no_signal (h : s.transfers = false) (herr : s.errOut = none) (hend : s.endOut = none) :
    s.afterEdge = { s with inputs := s.inputs.tail, rstHigh := true, gap := s.gap - 1 } := by
  simp [s.afterEdge_of_no_transfer h, herr, hend]

theorem State.dstBeat_of_presented {b : Beat} {rest : List Beat} (hp : s.pending = b :: rest) (hg : s.gap = 0) :
    s.dstBeat = some b := by
  rw [State.dstBeat, if_pos hg, hp, List.head?_cons]

/-- What is left of a drain when its first beat `b` has transferred and `rest` is to come; how long the next beat is awaited is
a free value (log entry 9). -/
def State.beatGone (b : Beat) (rest : List Beat) (s : State) : State :=
  { s with
    rstHigh := true, pending := rest, portLog := s.portLog ++ [.beat b]
    gap := if rest = [] then 0 else Config.beatGap s.gapDraws
    gapDraws := if rest = [] then s.gapDraws else s.gapDraws + 1 }

/-- A beat that is presented to a ready destination side transfers, and nothing else happens on the ports (R236). -/
theorem State.afterEdge_of_transfer {b : Beat} {rest : List Beat} (hp : s.pending = b :: rest) (hg : s.gap = 0)
    (hd : s.pins.dstReady = true) (herr : s.errOut = none) (hend : s.endOut = none) :
    s.afterEdge = { s.beatGone b rest with inputs := s.inputs.tail } := by
  have ht : s.transfers = true := by rw [transfers_of_presented s (by simp [hp]) hg, hd]
  have hbeat : s.dstBeat = some b := s.dstBeat_of_presented hp hg
  have hf : s.beatFollows = !rest.isEmpty := by simp [State.beatFollows, ht, hp]
  cases rest <;> simp [State.afterEdge, State.sampled, State.beatGone, ht, hbeat, hf, hp, hg, herr, hend]

theorem State.inReady_of_pending (h : s.pending ≠ []) : s.inReady = false := by
  simp [State.inReady, h]

theorem State.accepts_of_not_inReady (h : s.inReady = false) : s.accepts = false := by
  rw [State.accepts, h, Bool.and_false]

/-- The three reasons not to accept a word at an edge with `rst_n = 1` (R235). -/
theorem State.accepts_eq_false (h : s.pins.inValid = false ∨ s.pending ≠ [] ∨ s.rstHigh = false) :
    s.accepts = false := by
  obtain hv | hp | hr := h
  · simp [State.accepts, hv]
  · exact s.accepts_of_not_inReady (s.inReady_of_pending hp)
  · simp [State.accepts, State.inReady, hr]

/-- The strobes are sampled first, and after them only beats (R236, R237). -/
theorem State.sampled_eq : ∃ bs : List Beat,
    s.sampled = (s.errOut.map PortSignal.errStrobe).toList ++ (s.endOut.map PortSignal.endStrobe).toList ++
      bs.map PortSignal.beat := by
  refine ⟨if s.transfers then s.dstBeat.toList else [], ?_⟩
  rw [State.sampled]
  split <;> cases s.dstBeat <;> rfl

end

/-! ### The port invariants (R231, R236, R237, R181) -/

theorem portInv_resetAtEdge (s : State) : PortInv s.resetAtEdge :=
  ⟨fun h => absurd rfl h, fun _ hb => absurd hb List.not_mem_nil, .inl rfl, .inl rfl,
    fun _ => ⟨rfl, rfl, rfl, rfl, rfl, ⟨rfl, rfl, rfl, rfl, rfl, rfl, rfl⟩, rfl, rfl⟩⟩

/-- The ports' own work takes beats away and drops the strobes, so it keeps the invariants. -/
theorem portInv_afterEdge {s : State} (h : PortInv s) : PortInv s.afterEdge := by
  obtain ⟨hdrain, hbound, -⟩ := h
  have hsub := s.afterEdge_pending_subset
  refine ⟨fun hne => ⟨?_, rfl, rfl⟩, fun b hb => hbound b (hsub hb), .inl rfl, .inl rfl, nofun⟩
  obtain ⟨hrun, -⟩ := hdrain fun hnil => hne (List.subset_nil.1 (hnil ▸ hsub))
  exact hrun

/-- Settles O53: by the three forms of an edge; a word is acted on with the ports at rest. -/
theorem stepKeepsThePortInvariants : Obligations.StepKeepsThePortInvariants := by
  intro s t h hs
  obtain ⟨-, rfl⟩ | ⟨-, -, rfl⟩ | ⟨-, -, hp, e⟩ := step_effect s t hs
  · exact portInv_resetAtEdge s
  · exact portInv_afterEdge h
  · obtain ⟨-, -, hr⟩ := e.ports_frame
    exact e.portLoad.portInv (List.subset_nil.1 (hp ▸ s.afterEdge_pending_subset)) rfl rfl hr

/-! ### The beats of a chunk (R236) -/

theorem beatsOf_of_ne_nil (c : BitVec 3) (p : List Byte) (h : p ≠ []) : beatsOf c p = dataBeats c p := by
  cases p with
  | nil => exact absurd rfl h
  | cons b p => rfl

theorem dataBeats_length (c : BitVec 3) (p : List Byte) : (dataBeats c p).length = p.length := by
  induction p with
  | nil => rfl
  | cons b p ih => rw [dataBeats, List.length_cons, ih, List.length_cons]

/-- Beat `i` carries byte `i`, and the last one alone is marked last. -/
theorem dataBeats_getElem? (c : BitVec 3) (p : List Byte) (i : Nat) :
    (dataBeats c p)[i]? = p[i]?.map fun x => ⟨c, x, decide (i + 1 = p.length), false⟩ := by
  induction p generalizing i with
  | nil => rfl
  | cons b p ih =>
    cases i with
    | zero => cases p <;> simp [dataBeats]
    | succ i => simp [dataBeats, ih]

/-- Settles O45: a chunk that is not empty has the beats of `dataBeats`. -/
theorem beatsOfAChunk : Obligations.BeatsOfAChunk := by
  refine ⟨fun c => rfl, fun c p hp => ?_⟩
  rw [beatsOf_of_ne_nil c p hp]
  refine ⟨dataBeats_length c p, fun i x hx => ?_⟩
  rw [dataBeats_getElem?, hx, Option.map_some]

/-! ### The reset edge (R231, R239) -/

/-- With every field of R20 at its reset value, `STATUS` reads 0. -/
theorem State.resetRegisters_status (s : State) : s.resetRegisters.status = 0x000#16 :=
  calc s.resetRegisters.status = State.reset.status := rfl
    _ = 0x000#16 := by decide

/-- Settles O7: the reset state is what `resetRegisters` makes of itself. -/
theorem resetValues : Obligations.ResetValues :=
  ⟨rfl, rfl, rfl, rfl, rfl, rfl, rfl, rfl, rfl, rfl, rfl, State.reset.resetRegisters_status, rfl, rfl, rfl⟩

/-- Settles O8: such an edge is `State.resetAtEdge`, whatever the pins and the ports show. -/
theorem resetEdgeResetsTheBlock : Obligations.ResetEdgeResetsTheBlock := fun s hr =>
  ⟨s.resetAtEdge, s.portLog ++ s.sampled ++ [.resetEdge], 0, step_of_reset s hr, rfl, s.resetRegisters_status, rfl, rfl,
    rfl, rfl⟩

/-! ### Accepting a word (R235) -/

/-- Settles O41: a word is accepted with no beat pending, so the ports' own work is that of an edge without a transfer. -/
theorem stepRunsTheAcceptedWord : Obligations.StepRunsTheAcceptedWord := by
  intro s hr hv hready
  have ha : s.accepts = true := by rw [State.accepts, hr, hv, hready]; rfl
  rw [step_of_accept s ha, s.afterEdge_of_no_transfer (transfers_of_no_beat s (pending_of_accepts s ha))]

/-- Settles O43: such an edge does the ports' own work only. -/
theorem noAcceptanceNoChange : Obligations.NoAcceptanceNoChange := fun s hr h =>
  ⟨_, _, _, _, step_of_hold s hr (s.accepts_eq_false h)⟩

/-! ### One beat (R236, R238) -/

/-- Settles O44: no word is accepted, and the ports' own work is that of a transfer or of none. -/
theorem beatIsHeldUntilReady : Obligations.BeatIsHeldUntilReady := by
  intro b rest s hp herr hend hr
  have hne : s.pending ≠ [] := by simp [hp]
  have hready : s.inReady = false := s.inReady_of_pending hne
  have hstep : step s = .next s.afterEdge := step_of_hold s hr (s.accepts_of_not_inReady hready)
  refine ⟨hready, fun hg => ⟨?_, fun hd => ?_, fun hd => ?_⟩, fun hg => ⟨?_, ?_⟩⟩
  · exact s.dstBeat_of_presented hp hg
  · refine ⟨(s.beatGone b rest).gap, (s.beatGone b rest).gapDraws, fun hrest => if_pos hrest, ?_⟩
    rw [hstep, s.afterEdge_of_transfer hp hg hd herr hend]
    rfl
  · have ht : s.transfers = false := by rw [transfers_of_presented s hne hg, hd]
    rw [hstep, s.afterEdge_of_no_signal ht herr hend, hg, Nat.zero_sub, ← hg]
  · exact if_neg hg
  · rw [hstep, s.afterEdge_of_no_signal (transfers_of_gap s hg) herr hend]

/-! ### A whole drain (R235, R236)

The number of edges is found by an induction on the beats and, before each beat, on the cycles in which it is awaited. It
does not depend on the pins, as long as `rst_n` and `dst_ready` are 1. -/

/-- The state when all the pending beats have transferred, with `d` draws of the free value made. -/
def State.drained (d : Nat) (s : State) : State :=
  { s with
    rstHigh := true, pending := [], gap := 0, gapDraws := d
    portLog := s.portLog ++ s.pending.map PortSignal.beat }

/-- The drain ends at the `n`th edge with `rst_n = dst_ready = 1`, and the block is not ready before. -/
def DrainsIn (n d : Nat) (s : State) : Prop :=
  ∀ ins : List Pins, n ≤ ins.length → (∀ p ∈ ins.take n, p.rstN = true ∧ p.dstReady = true) →
    (∀ m < n, ∃ u, edges m { s with inputs := ins } = .next u ∧ u.inReady = false) ∧
    edges n { s with inputs := ins } = .next { s.drained d with inputs := ins.drop n }

theorem edges_succ_of_step {s t : State} (h : step s = .next t) (k : Nat) : edges (k + 1) s = edges k t := by
  rw [edges, h]

/-- With nothing left to transfer the drain has ended. -/
theorem drainsIn_of_no_beat {s : State} (hp : s.pending = []) (hr : s.rstHigh = true) (hg : s.gap = 0) :
    DrainsIn 0 s.gapDraws s := by
  have hs : s.drained s.gapDraws = s := by
    rw [State.drained, hp, List.map_nil, List.append_nil, ← hp, ← hr, ← hg]
  exact fun ins _ _ => ⟨nofun, by rw [hs]; rfl⟩

/-- One edge of a drain, and then the others. -/
theorem DrainsIn.of_edge {n d : Nat} {s s' : State} (hready : s.inReady = false)
    (hedge : ∀ p ins, p.rstN = true → p.dstReady = true →
      ({ s with inputs := p :: ins } : State).afterEdge = { s' with inputs := ins })
    (hsame : s'.drained d = s.drained d) (h : DrainsIn n d s') : DrainsIn (n + 1) d s := by
  intro ins hlen hpins
  cases ins with
  | nil => cases hlen
  | cons p ins =>
    rw [List.take_succ_cons, List.forall_mem_cons] at hpins
    obtain ⟨⟨hr, hd⟩, hpins⟩ := hpins
    have hstep : step { s with inputs := p :: ins } = .next { s' with inputs := ins } := by
      rw [← hedge p ins hr hd]
      exact step_of_hold _ hr (State.accepts_of_not_inReady _ hready)
    obtain ⟨hbefore, hend⟩ := h ins (Nat.le_of_succ_le_succ hlen) hpins
    refine ⟨fun m hm => ?_, ?_⟩
    · cases m with
      | zero => exact ⟨_, rfl, hready⟩
      | succ m =>
        rw [edges_succ_of_step hstep]
        exact hbefore m (Nat.lt_of_succ_lt_succ hm)
    · rw [edges_succ_of_step hstep, hend, hsame, List.drop_succ_cons]

/-- An edge of a drain at which the next beat is still awaited. -/
theorem drainsIn_of_awaited {n d : Nat} {s : State} (hp : s.pending ≠ []) (hg : s.gap ≠ 0) (herr : s.errOut = none)
    (hend : s.endOut = none) (h : DrainsIn n d { s with rstHigh := true, gap := s.gap - 1 }) : DrainsIn (n + 1) d s :=
  DrainsIn.of_edge (s' := { s with rstHigh := true, gap := s.gap - 1 }) (s.inReady_of_pending hp)
    (fun _ _ _ _ => State.afterEdge_of_no_signal _ (transfers_of_gap _ hg) herr hend) rfl h

/-- An edge of a drain at which a beat transfers. -/
theorem drainsIn_of_presented {n d : Nat} {b : Beat} {rest : List Beat} {s : State} (hp : s.pending = b :: rest)
    (hg : s.gap = 0) (herr : s.errOut = none) (hend : s.endOut = none) (h : DrainsIn n d (s.beatGone b rest)) :
    DrainsIn (n + 1) d s := by
  refine h.of_edge (s.inReady_of_pending (by simp [hp])) (fun p ins _ hd => ?_) ?_
  · exact State.afterEdge_of_transfer _ hp hg hd herr hend
  · simp [State.drained, State.beatGone, hp]

/-- Every drain ends, after at least one edge a beat. -/
theorem exists_drainsIn (bs : List Beat) (s : State) (hp : s.pending = bs) (herr : s.errOut = none)
    (hend : s.endOut = none) (hrest : bs = [] → s.rstHigh = true ∧ s.gap = 0) :
    ∃ n d, bs.length ≤ n ∧ DrainsIn n d s := by
  induction bs generalizing s with
  | nil =>
    obtain ⟨hr, hg⟩ := hrest rfl
    exact ⟨0, s.gapDraws, le_rfl, drainsIn_of_no_beat hp hr hg⟩
  | cons b rest ih =>
    induction hk : s.gap generalizing s with
    | zero =>
      obtain ⟨n, d, hn, h⟩ := ih (s.beatGone b rest) rfl herr hend fun hnil => ⟨rfl, if_pos hnil⟩
      exact ⟨n + 1, d, Nat.succ_le_succ hn, drainsIn_of_presented hp hk herr hend h⟩
    | succ k ihk =>
      obtain ⟨n, d, hn, h⟩ := ihk { s with rstHigh := true, gap := s.gap - 1 } hp herr hend nofun (by simp [hk])
      exact ⟨n + 1, d, Nat.le_succ_of_le hn, drainsIn_of_awaited (by simp [hp]) (by simp [hk]) herr hend h⟩

/-- Settles O46: `exists_drainsIn`, and the state it ends in is ready. -/
theorem drainEndsWhenReady : Obligations.DrainEndsWhenReady := by
  intro s hp herr hend
  obtain ⟨n, d, hn, h⟩ := exists_drainsIn s.pending s rfl herr hend fun hnil => absurd hnil hp
  refine ⟨n, d, hn, fun ins hlen hpins => ?_⟩
  obtain ⟨hbefore, hafter⟩ := h ins hlen hpins
  exact ⟨hbefore, _, hafter, rfl, rfl⟩

/-- Settles O47: the drain of O46 with the word on the pins at each of its edges, and then an edge that accepts (O41). -/
theorem heldWordIsAcceptedAfterTheDrain : Obligations.HeldWordIsAcceptedAfterTheDrain := by
  intro s hp herr hend
  obtain ⟨n, d, hn, h⟩ := drainEndsWhenReady s hp herr hend
  refine ⟨n, d, hn, ?_⟩
  rintro w rest ins rfl
  rw [List.replicate_succ', List.append_assoc, List.singleton_append]
  have hpins := h (List.replicate n ⟨true, true, w, true⟩ ++ ⟨true, true, w, true⟩ :: rest) (by simp)
  rw [List.take_left' List.length_replicate, List.drop_left' List.length_replicate] at hpins
  obtain ⟨hbefore, t, hafter, hready, rfl⟩ := hpins fun p hp => by rw [List.eq_of_mem_replicate hp]; exact ⟨rfl, rfl⟩
  refine ⟨fun m hm => ?_, _, hafter, rfl, ⟨rfl, rfl, rfl, rfl, rfl, rfl, rfl, rfl, rfl, rfl, rfl, rfl, rfl⟩, ?_⟩
  · obtain ⟨u, hu, hbusy⟩ := hbefore m hm
    exact ⟨u, hu, u.accepts_of_not_inReady hbusy⟩
  · rw [stepRunsTheAcceptedWord _ rfl rfl hready]
    simp [herr, hend, State.pins]

/-! ### The strobes (R237) -/

/-- The record grows by what is sampled, and at a reset edge by that edge (log entry 3). -/
theorem step_portLog {s t : State} (h : step s = .next t) :
    t.portLog = s.portLog ++ s.sampled ∨ t.portLog = s.portLog ++ s.sampled ++ [.resetEdge] := by
  obtain ⟨-, rfl⟩ | ⟨-, -, rfl⟩ | ⟨-, -, -, e⟩ := step_effect s t h
  · exact .inr rfl
  · exact .inl rfl
  · obtain ⟨-, hlog, -⟩ := e.ports_frame
    exact .inl hlog

/-- The strobes fall at every edge, so one that is up after it is a word's, beside its event. -/
theorem step_strobe_event {s t : State} (h : step s = .next t) :
    (t.errOut ≠ none → ∃ e, t.errOut = some e ∧ t.events = s.events ++ [.err e]) ∧
      (t.endOut ≠ none → ∃ m, t.endOut = some m ∧ t.events = s.events ++ [.endTo m]) := by
  obtain ⟨-, rfl⟩ | ⟨-, -, rfl⟩ | ⟨-, -, -, e⟩ := step_effect s t h
  · exact ⟨absurd rfl, absurd rfl⟩
  · exact ⟨absurd rfl, absurd rfl⟩
  · exact ⟨e.portLoad.errOut_event rfl, e.portLoad.endOut_event rfl⟩

/-- Settles O48: `step_portLog`, where the sampled strobes come first, and `step_strobe_event`. -/
theorem strobesLastOneCycle : Obligations.StrobesLastOneCycle := by
  intro s t h
  obtain ⟨bs, hbs⟩ := s.sampled_eq
  have hbeats : ∀ x ∈ bs.map PortSignal.beat, ∃ b, x = .beat b := fun x hx => by
    obtain ⟨b, -, rfl⟩ := List.mem_map.1 hx
    exact ⟨b, rfl⟩
  refine ⟨?_, step_strobe_event h⟩
  obtain hlog | hlog := step_portLog h
  · refine ⟨bs.map .beat, ?_, fun x hx => .inl (hbeats x hx)⟩
    rw [hlog, hbs]
    simp only [List.append_assoc]
  · refine ⟨bs.map .beat ++ [.resetEdge], ?_, fun x hx => ?_⟩
    · rw [hlog, hbs]
      simp only [List.append_assoc]
    · exact (List.mem_append.1 hx).imp (hbeats x) List.mem_singleton.1

/-! ### A destination side that is never ready (R238) -/

/-- Past the end of the samples the pins are idle: no reset, and the destination side is not ready (log entry 1). -/
theorem State.pins_not_ready (s : State) (h : ∀ p ∈ s.inputs, p.rstN = true ∧ p.dstReady = false) :
    s.pins.rstN = true ∧ s.pins.dstReady = false := by
  cases hi : s.inputs with
  | nil => simp [State.pins, hi, Pins.idle]
  | cons p ins => simpa [State.pins, hi] using h p (by simp [hi])

theorem transfers_of_not_ready (s : State) (h : s.pins.dstReady = false) : s.transfers = false := by
  rw [State.transfers, h, Bool.and_false]

/-- Settles O49, by induction on the edges: each does the ports' own work only, and that without a transfer. -/
theorem destinationNeverReadyStallsTheBlock : Obligations.DestinationNeverReadyStallsTheBlock := by
  intro k
  induction k with
  | zero =>
    exact fun s hp _ =>
      ⟨s, rfl, ⟨rfl, rfl, rfl, rfl, rfl, rfl, rfl, rfl, rfl, rfl, rfl, rfl, rfl⟩, rfl, s.inReady_of_pending hp⟩
  | succ k ih =>
    intro s hp hins
    obtain ⟨hr, hd⟩ := s.pins_not_ready hins
    have hstep : step s = .next s.afterEdge :=
      step_of_hold s hr (s.accepts_of_not_inReady (s.inReady_of_pending hp))
    have hpending : s.afterEdge.pending = s.pending := by
      rw [s.afterEdge_of_no_transfer (transfers_of_not_ready s hd)]
    obtain ⟨t, ht, hsame, htp, htr⟩ :=
      ih s.afterEdge (hpending ▸ hp) fun p hmem => hins p (List.mem_of_mem_tail hmem)
    exact ⟨t, (edges_succ_of_step hstep k).trans ht, hsame, htp.trans hpending, htr⟩

/-! ### The output ports (R234, R241) -/

/-- Settles O56: the ports are read off the state; a chunk is loaded with the cursor cleared, and an edge that accepts no word
does the ports' own work only. -/
theorem outputsShowTheStateAfterTheLastWord : Obligations.OutputsShowTheStateAfterTheLastWord := by
  refine ⟨fun s => ⟨rfl, rfl, rfl, rfl, rfl, rfl, rfl, rfl⟩, fun i s t hs h ht => ?_, fun s t hr ha h => ?_⟩
  · obtain ⟨hphase, hdbg⟩ := (effect_of_exec i s t h).portLoad.cursor_of_drain hs ht
    refine ⟨?_, hdbg⟩
    rw [State.outputs_status, t.status_phase, hphase]
    rfl
  · rw [step_of_hold s hr ha, Host.Outcome.next.injEq] at h
    subst h
    exact ⟨rfl, rfl, rfl, rfl⟩

end Sys2Proof.Machine
end

section
/-! PROOFS of what the model chooses where the spec says nothing: what the frame header does where no header is being read (log
entry 5), and the host's fetch of a word or a header (log entries 2, 4). -/

namespace Sys2Proof.Machine

/-! ### The frame header where no header is being read -/

theorem exec_frameHeader_of_not_run (c : Byte) (l : Len) (s : State) (hm : s.mode ≠ .run) :
    exec (.frameHeader c l) s = .next s.setIll := by
  rw [exec, execFrameHeader, if_pos hm]

theorem execFrameHeader_awaitingPayload (c : Byte) (l : Len) (s : State) (hm : s.mode = .run) (hp : s.phase = .payload) :
    exec (.frameHeader c l) s = .next (s.payloadStep (l.extractLsb' 0 8)) := by
  simp [exec, execFrameHeader, hm, hp]

/-- Settles O21: outside `RUN` both set `ILL` and no more; in `AWAITING_PAYLOAD` both take that byte into the payload. -/
theorem frameHeaderElsewhereIsItsLastByte : Obligations.FrameHeaderElsewhereIsItsLastByte := by
  intro c l s h
  by_cases hm : s.mode = .run
  · have hp : s.phase = .payload := h.resolve_left (not_not.2 hm)
    rw [execFrameHeader_awaitingPayload c l s hm hp, execByte_awaitingPayload _ s hm hp]
  · rw [exec_frameHeader_of_not_run c l s hm, exec_byte_of_not_run _ s hm]

/-! ### The host's fetch -/

theorem State.withFetchWord_word (s : State) (w : TxnWord) : s.withFetchWord 16 w.toNat = s.presentWord w := by
  rw [State.withFetchWord, if_neg (by decide), BitVec.ofNat_toNat, BitVec.setWidth_eq]

theorem State.withFetchWord_header (s : State) (h : HeaderWord) : s.withFetchWord 40 h.toNat = s.presentHeader h := by
  rw [State.withFetchWord, if_pos rfl, BitVec.ofNat_toNat, BitVec.setWidth_eq]

/-- A presented word finds the block ready for it, so the coming edge accepts it (R235). -/
theorem step_presentWord (w : TxnWord) (s : State) :
    step (s.presentWord w) = exec (decodeWord w) (s.presentWord w).afterEdge :=
  step_of_accept (s.presentWord w) rfl

/-- Presenting a word takes the pending beats away, so the edge that accepts it only samples the strobes. -/
theorem State.afterEdge_presentWord (w : TxnWord) (s : State) :
    (s.presentWord w).afterEdge =
      { s with
        inputs := s.inputs.tail, rstHigh := true, pending := [], gap := 0, errOut := none, endOut := none
        portLog := (s.presentWord w).afterEdge.portLog } := by
  rw [State.afterEdge_of_no_transfer _ (transfers_of_no_beat (s.presentWord w) rfl)]
  rfl

/-- A header is its first four bytes, as `HBUF` holds them, and its last (R71, R131). -/
theorem header_eq_hbuf_append_byte (h : HeaderWord) : h.extractLsb' 8 32 ++ h.extractLsb' 0 8 = h :=
  BitVec.extractLsb'_append_extractLsb' (w := 32) (len := 8) (x := h)

/-- The edge that accepts the last byte of a presented header completes that header (R132). -/
theorem step_presentHeader (h : HeaderWord) (s : State) :
    step (s.presentHeader h) = exec (decodeHeader h) (s.presentHeader h).afterEdge := by
  have hfifth := fifthHeaderByteRunsTheDecodedHeader (h.extractLsb' 0 8) (s.presentHeader h).afterEdge rfl rfl rfl
  have hheld : (s.presentHeader h).afterEdge.hbuf = h.extractLsb' 8 32 := rfl
  rw [hheld, header_eq_hbuf_append_byte] at hfifth
  rw [← hfifth, State.presentHeader, step_presentWord, decodeWord_byte]

/-- Settles O42: the state on which the fetched instruction is run is the presented one after the ports' own work. -/
theorem fetchedInstructionRunsNext : Obligations.FetchedInstructionRunsNext := by
  refine ⟨fun w s => ⟨(s.presentWord w).afterEdge, ?_, s.afterEdge_presentWord w⟩,
    fun h s => ⟨(s.presentHeader h).afterEdge, ?_, rfl, rfl, rfl, rfl⟩⟩
  · rw [State.withFetchWord_word, step_presentWord]
  · rw [State.withFetchWord_header, step_presentHeader]

end Sys2Proof.Machine
end
